-- ==== Sys2Proof/Word.lean ====
section
/-! DEFINITION. The word types of the HCE and the matrix-register selector. -/

namespace Sys2Proof

/-- A register or command word: 32 bits, numbered from 0, the least significant (R8). -/
abbrev Word := BitVec 32

/-- A byte of BUF: an unsigned 8-bit value (R60). -/
abbrev Byte := BitVec 8

/-- Storage of one matrix or vector entry: 16 bits (R6, R36, R38). -/
abbrev Entry := BitVec 16

/-- The fields S and D of a command word: they name a matrix register, they are not numbers (R81). -/
inductive MatSel where
  | m0
  | m1
  deriving DecidableEq, Repr

end Sys2Proof
end

