-- ==== Sys2Proof/Syntax.lean ====
section
/-! DEFINITION. The eleven commands of the HCE, one constructor per row of the opcode map (R83). -/

namespace Sys2Proof

/-- A command (R83). Destinations come first, as in the assembler syntax (R86). -/
inductive Instr where
  /-- `NOP` (R100). -/
  | nop
  /-- `GCD`: RES becomes gcd(OPA, OPB) (R102). -/
  | gcd
  /-- `MODINV`: RES becomes the inverse of OPA modulo OPB (R104). -/
  | modinv
  /-- `DET ms` (R121). -/
  | det (s : MatSel)
  /-- `ADJ md, ms` (R124). -/
  | adj (d s : MatSel)
  /-- `INV md, ms` (R127). -/
  | inv (d s : MatSel)
  /-- `MATVEC ms` (R130). -/
  | matvec (s : MatSel)
  /-- `PAD` (R144). -/
  | pad
  /-- `UNPAD` (R146). -/
  | unpad
  /-- `ENC ms` (R149). -/
  | enc (s : MatSel)
  /-- `DEC ms` (R152). -/
  | dec (s : MatSel)
  deriving DecidableEq, Repr

end Sys2Proof
end

