-- ==== Sys2Proof/Bus.lean ====
section
/-! DEFINITION. What the outside world does to the HCE: host bus accesses, engine turns and the reset
input as events, the registers of the map by name, and the host program notation (R39, R63, R87, R88). -/

namespace Sys2Proof

/-- The width of a host bus access (R63). -/
inductive AccessWidth where
  | byte
  | half
  | word
  deriving DecidableEq, Repr

/-- One item of the total order of host accesses and engine steps (R68), with the reset input (R200). -/
inductive Event where
  /-- A host write of a value to an offset of the register window. -/
  | write (width : AccessWidth) (offset : BitVec 12) (value : Word)
  /-- A host read of an offset of the register window. -/
  | read (width : AccessWidth) (offset : BitVec 12)
  /-- The host's `WAIT`: poll STATUS until DONE reads 1 (R87). -/
  | wait
  /-- One engine step (R44). -/
  | engine
  /-- The reset input is asserted (true) or released (false) (R200). -/
  | resetInput (asserted : Bool)
  deriving DecidableEq, Repr

/-- The registers of the map by name; every offset of the window that has none is reserved (R39). -/
inductive Reg where
  | id
  | ctrl
  | status
  | cmd
  | mod
  | dim
  | opa
  | opb
  | res
  | src
  | dst
  | len
  | outlen
  | bufAddr
  | bufData
  | vin (j : Fin 16)
  | vout (i : Fin 16)
  | mat (m : MatSel) (i j : Fin 16)
  deriving DecidableEq, Repr

/-- The host program notation with its pseudo-instructions (R87, R88). -/
inductive HostOp where
  /-- `WR <reg>, <value>`. -/
  | wr (r : Reg) (v : Word)
  /-- `RD <reg>`. -/
  | rd (r : Reg)
  /-- `CMD <syntax>`. -/
  | cmd (i : Instr)
  /-- `WAIT`. -/
  | wait
  /-- `LOADMAT ms, N, rows`. -/
  | loadMat (m : MatSel) (n : Nat) (rows : List (List Word))
  /-- `LOADVEC N, values`. -/
  | loadVec (n : Nat) (vals : List Word)
  /-- `BUFWRITE a, bytes`. -/
  | bufWrite (a : BitVec 16) (bytes : List Byte)
  /-- `BUFREAD a, k`. -/
  | bufRead (a : BitVec 16) (k : Nat)
  /-- `RUN <syntax>`. -/
  | run (i : Instr)
  /-- `KINV`. -/
  | kinv
  /-- `CLRSTAT`. -/
  | clrStat
  deriving DecidableEq, Repr

end Sys2Proof
end

