-- ==== Sys2Proof/WellFormed.lean ====
section
/-! DEFINITION. Well-formedness of commands, host accesses and host operations. -/

namespace Sys2Proof

/-- Every command is well-formed: each field of the syntax is a selector with its two legal values
(R80, R81), so the illegal words of R84 have no term; they are refused by the decoder. -/
def Instr.wf : Instr → Bool
  | .nop | .gcd | .modinv | .pad | .unpad => true
  | .det _ | .matvec _ | .enc _ | .dec _ => true
  | .adj _ _ | .inv _ _ => true

/-- A host access is well-formed if it is one that the HCE performs: a 32-bit access at an offset that is
a multiple of 4 (R63). The other events always are. -/
def Event.wf : Event → Bool
  | .write w o _ => w == .word && o.toNat % 4 == 0
  | .read w o => w == .word && o.toNat % 4 == 0
  | .wait | .engine | .resetInput _ => true

/-- A host operation is well-formed if its table has the shape its notation says (R88). -/
def HostOp.wf : HostOp → Bool
  | .loadMat _ n rows => n ≤ 16 && rows.length == n && rows.all (fun r => r.length == n)
  | .loadVec n vals => n ≤ 16 && vals.length == n
  | .wr _ _ | .rd _ | .cmd _ | .wait | .bufWrite _ _ | .bufRead _ _ | .run _ | .kinv | .clrStat => true

end Sys2Proof
end

