-- ==== Sys2Proof/Decode.lean ====
section
/-! DEFINITION. Command words: fields, decoder, encoder and the opcode table with its match and mask
columns (R80 to R86). -/

namespace Sys2Proof

/-- OPC, bits 7:0 (R81). -/
def opc (w : Word) : BitVec 8 := w.extractLsb' 0 8

/-- S, bit 8 (R81). -/
def fieldS (w : Word) : Bool := w.getLsbD 8

/-- D, bit 9 (R81). -/
def fieldD (w : Word) : Bool := w.getLsbD 9

/-- RSV, bits 31:10 (R81). -/
def rsv (w : Word) : BitVec 22 := w.extractLsb' 10 22

/-- The matrix register a selector bit names: MAT0 if 0, MAT1 if 1 (R81). -/
def matSelOf (b : Bool) : MatSel := if b then .m1 else .m0

/-- The selector bit of a matrix register (R81). -/
def matSelBit : MatSel → Bool
  | .m0 => false
  | .m1 => true

/-- Why a word is no command: the cases of R84, and a byte sequence that is too short. -/
inductive DecodeError where
  /-- RSV is not 0. -/
  | reservedBits
  /-- S or D is set in a command that does not use it. -/
  | unusedSelector
  /-- OPC is 0x0B or more. -/
  | unassignedOpcode
  /-- Fewer than four bytes. -/
  | truncated
  deriving DecidableEq, Repr

/-- A command that uses neither selector: both must be 0 (R84). -/
def decodePlain (w : Word) (i : Instr) : Except DecodeError Instr :=
  if fieldS w || fieldD w then .error .unusedSelector else .ok i

/-- A command that uses S only: D must be 0 (R84). -/
def decodeS (w : Word) (f : MatSel → Instr) : Except DecodeError Instr :=
  if fieldD w then .error .unusedSelector else .ok (f (matSelOf (fieldS w)))

/-- A command that uses both selectors (R84). -/
def decodeDS (w : Word) (f : MatSel → MatSel → Instr) : Except DecodeError Instr :=
  .ok (f (matSelOf (fieldD w)) (matSelOf (fieldS w)))

/-- The decoder, as `Decode(w)` of R84. -/
def decode (w : Word) : Except DecodeError Instr :=
  if rsv w ≠ 0 then .error .reservedBits
  else
    match (opc w).toNat with
    | 0x00 => decodePlain w .nop
    | 0x01 => decodePlain w .gcd
    | 0x02 => decodePlain w .modinv
    | 0x03 => decodeS w .det
    | 0x04 => decodeDS w .adj
    | 0x05 => decodeDS w .inv
    | 0x06 => decodeS w .matvec
    | 0x07 => decodePlain w .pad
    | 0x08 => decodePlain w .unpad
    | 0x09 => decodeS w .enc
    | 0x0A => decodeS w .dec
    | _ => .error .unassignedOpcode

/-- The bytes of a word in the order of their addresses: lane k carries bits 8k+7 to 8k (R62). -/
def wordBytes (w : Word) : List Byte :=
  [w.extractLsb' 0 8, w.extractLsb' 8 8, w.extractLsb' 16 8, w.extractLsb' 24 8]

/-- The word whose byte lanes are given, lane 0 first (R62). -/
def wordOfBytes (b0 b1 b2 b3 : Byte) : Word := b3 ++ b2 ++ b1 ++ b0

/-- The decoder over bytes in address order: one command is four bytes (R62, R85); the rest of the list
is returned. DEDUCED (log 10): the order of the bytes is that of the host bus lanes. -/
def decodeBytes : List Byte → Except DecodeError (Instr × List Byte)
  | b0 :: b1 :: b2 :: b3 :: rest =>
    match decode (wordOfBytes b0 b1 b2 b3) with
    | .ok i => .ok (i, rest)
    | .error e => .error e
  | _ => .error .truncated

/-- OPC of a command (R83). -/
def opcodeOf : Instr → BitVec 8
  | .nop => 0x00
  | .gcd => 0x01
  | .modinv => 0x02
  | .det _ => 0x03
  | .adj _ _ => 0x04
  | .inv _ _ => 0x05
  | .matvec _ => 0x06
  | .pad => 0x07
  | .unpad => 0x08
  | .enc _ => 0x09
  | .dec _ => 0x0A

/-- S of a command, 0 where it is not used (R80). -/
def selS : Instr → Bool
  | .det s | .adj _ s | .inv _ s | .matvec s | .enc s | .dec s => matSelBit s
  | .nop | .gcd | .modinv | .pad | .unpad => false

/-- D of a command, 0 where it is not used (R80). -/
def selD : Instr → Bool
  | .adj d _ | .inv d _ => matSelBit d
  | .nop | .gcd | .modinv | .pad | .unpad | .det _ | .matvec _ | .enc _ | .dec _ => false

/-- The word of a command, `{RSV = 0, D, S, OPC}` (R80, R86). -/
def encode (i : Instr) : Word :=
  0#22 ++ BitVec.ofBool (selD i) ++ BitVec.ofBool (selS i) ++ opcodeOf i

/-- One row of the opcode map: a word w selects it when `w AND mask = pattern` (R83). -/
structure OpcodeRow where
  mnemonic : String
  pattern : Word
  mask : Word
  deriving DecidableEq, Repr

/-- The match and mask table of R83. -/
def opcodeTable : List OpcodeRow := [
  ⟨"NOP", 0x00000000, 0xFFFFFFFF⟩,
  ⟨"GCD", 0x00000001, 0xFFFFFFFF⟩,
  ⟨"MODINV", 0x00000002, 0xFFFFFFFF⟩,
  ⟨"DET", 0x00000003, 0xFFFFFEFF⟩,
  ⟨"ADJ", 0x00000004, 0xFFFFFCFF⟩,
  ⟨"INV", 0x00000005, 0xFFFFFCFF⟩,
  ⟨"MATVEC", 0x00000006, 0xFFFFFEFF⟩,
  ⟨"PAD", 0x00000007, 0xFFFFFFFF⟩,
  ⟨"UNPAD", 0x00000008, 0xFFFFFFFF⟩,
  ⟨"ENC", 0x00000009, 0xFFFFFEFF⟩,
  ⟨"DEC", 0x0000000A, 0xFFFFFEFF⟩]

/-- The mnemonic of a command (R83). -/
def mnemonicOf : Instr → String
  | .nop => "NOP"
  | .gcd => "GCD"
  | .modinv => "MODINV"
  | .det _ => "DET"
  | .adj _ _ => "ADJ"
  | .inv _ _ => "INV"
  | .matvec _ => "MATVEC"
  | .pad => "PAD"
  | .unpad => "UNPAD"
  | .enc _ => "ENC"
  | .dec _ => "DEC"

/-- A word selects a row (R83). -/
def rowMatches (w : Word) (r : OpcodeRow) : Bool := w &&& r.mask == r.pattern

/-- The instruction this decoder reads from a table word of `nbits` bits whose value is `w`: its bytes
in address order, every bit above `nbits` 0. A number of more than 32 bits is no command word (R85). -/
def decodeTableWord (nbits w : Nat) : Option Instr :=
  if w % 2 ^ nbits < 2 ^ 32 then
    match decodeBytes (wordBytes (BitVec.ofNat 32 (w % 2 ^ nbits))) with
    | .ok (i, _) => some i
    | .error _ => none
  else none

end Sys2Proof
end

