-- ==== Sys2Proof/Machine/Arith.lean ====
section
/-! DEFINITION. Exact integer arithmetic of the engine (R7, R10): inverse modulo m, determinant, minor,
adjugate, and matrix-vector product modulo m. -/

namespace Sys2Proof.Machine

/-- The extended Euclidean loop of R104, on a bounded number of rounds. -/
def euclidLoop : Nat → Nat → Nat → Int → Int → Int
  | 0, _, _, t0, _ => t0
  | fuel + 1, r0, r1, t0, t1 =>
    if r1 = 0 then t0
    else euclidLoop fuel r1 (r0 % r1) t1 (t0 - ((r0 / r1 : Nat) : Int) * t1)

/-- `inv_mod(a, m)` (R10, R104): the x with 0 ≤ x < m and (a x) mod m = 1, when gcd(a mod m, m) = 1 and
m ≥ 2. The remainder falls in every round, so m rounds are enough (log 13). -/
def invMod (a m : Nat) : Nat := (euclidLoop m m (a % m) 0 1 % (m : Int)).toNat

/-- An n x n table of values, by rows. -/
def tab {α : Type} (n : Nat) (f : Nat → Nat → α) : List (List α) :=
  (List.range n).map fun i => (List.range n).map fun j => f i j

/-- Entry (i, j) of a table of integers. -/
def entryAt (A : List (List Int)) (i j : Nat) : Int := (A.getD i []).getD j 0

/-- The index in a list of which element r was removed, as an index of the whole list. -/
def skip (r i : Nat) : Nat := if i < r then i else i + 1

/-- `det(A)` of an n x n table (R10, R122): exact, by expansion on a non-zero entry of the first column.
With p that entry, in row r, and B the (n-1) x (n-1) table of the 2 x 2 determinants with p,
`p^(n-1) * det(A) = (-1)^r * p * det(B)`, and the division is exact (log 12). -/
def det : Nat → List (List Int) → Int
  | 0, _ => 1
  | n + 1, A =>
    match (List.range (n + 1)).find? (fun r => entryAt A r 0 != 0) with
    | none => 0
    | some r =>
      let p := entryAt A r 0
      (-1) ^ r *
        (p * det n (tab n fun i j =>
            p * entryAt A (skip r i) (j + 1) - entryAt A (skip r i) 0 * entryAt A r (j + 1)) / p ^ n)

/-- `minor(A, r, c)` of an (n+1) x (n+1) table: row r and column c removed (R10). -/
def minorOf (n : Nat) (A : List (List Int)) (r c : Nat) : List (List Int) :=
  tab n fun i j => entryAt A (skip r i) (skip c j)

/-- `adj(A)[i][j]` of an n x n table: (-1)^(i+j) det(minor(A, j, i)) (R10, R123). -/
def adjEntry (n : Nat) (A : List (List Int)) (i j : Nat) : Int :=
  (-1) ^ (i + j) * det (n - 1) (minorOf (n - 1) A j i)

/-- The least non-negative residue of an integer (R10). -/
def residue (a : Int) (m : Nat) : Nat := (a % (m : Int)).toNat

/-- The sum of the products of two lists, element by element. -/
def dot : List Nat → List Nat → Nat
  | x :: xs, y :: ys => x * y + dot xs ys
  | _, _ => 0

/-- A matrix times a vector, every sum exact and then reduced (R129, R130). -/
def matVecMod (M : Nat) (A : List (List Nat)) (v : List Nat) : List Nat :=
  A.map fun row => dot row v % M

end Sys2Proof.Machine
end

