-- ==== Sys2Proof/Machine/State.lean ====
section
/-! DEFINITION. The architectural state of the HCE (R20), its reset value (R48), and the reasons a step
can stop. -/

namespace Sys2Proof.Machine

/-- The engine state (R44). `busy k` is BUSY(w) with w the word in CMD, which cannot change while the
engine runs (R42), and `k` engine steps still to come before the completing one (R44, R220). -/
inductive Engine where
  | idle
  | busy (left : Nat)
  deriving DecidableEq, Repr

/-- BUF as a list of its written bytes in rising order of address; an address that is not listed has not
been written since the last hard reset (R48, log 5). -/
abbrev Memory := List Host.Cell

/-- A matrix register: 16 rows of 16 entries (R38). -/
abbrev MatReg := Vector (Vector Entry 16) 16

/-- The architectural state (R20), the reset input (R200), the counter of what the spec leaves open, and the
host's side of the bus order. ID is hardwired, BUF_DATA is a port, BUSY and IRQ are derived: none has a field. -/
structure State where
  /-- CTRL.IE (R23). -/
  ie : Bool
  /-- STATUS.DONE (R24). -/
  done : Bool
  /-- STATUS.ERR (R24). -/
  err : Bool
  /-- STATUS.OVR (R24). -/
  ovr : Bool
  /-- STATUS.ERRCODE (R24). -/
  errcode : BitVec 4
  /-- CMD, the last accepted command word (R26). -/
  cmd : Word
  /-- MOD (R27). -/
  modulus : BitVec 9
  /-- DIM (R28). -/
  dim : BitVec 5
  /-- OPA (R29). -/
  opa : Word
  /-- OPB (R29). -/
  opb : Word
  /-- RES (R30). -/
  res : Word
  /-- SRC (R31). -/
  src : BitVec 16
  /-- DST (R31). -/
  dst : BitVec 16
  /-- LEN (R32). -/
  len : BitVec 17
  /-- OUTLEN (R33). -/
  outlen : BitVec 17
  /-- BUF_ADDR (R34). -/
  bufAddr : BitVec 16
  /-- VIN (R36). -/
  vin : Vector Entry 16
  /-- VOUT (R37). -/
  vout : Vector Entry 16
  /-- MAT0 (R38). -/
  mat0 : MatReg
  /-- MAT1 (R38). -/
  mat1 : MatReg
  /-- BUF (R60). -/
  buf : Memory
  /-- IDLE or BUSY (R44). -/
  engine : Engine
  /-- The level of the reset input: true while it is asserted (R200, log 7). -/
  resetInput : Bool
  /-- The model's own: how many times BUF became unspecified by a hard reset, which selects the
  unspecified contents of BUF (R48, log 4). -/
  bufEpoch : Nat
  /-- The model's own: the host accesses and engine steps to come, in their total order (R68, log 1). -/
  agenda : List Event
  /-- The model's own: the values the host's reads returned, oldest first (R87, log 6). -/
  reads : List Word
  deriving DecidableEq, Repr

/-- The machine right after hard reset (R48, R200): BUF has no written byte and the reset input is
released. The three fields of the model's own start at 0 and empty (DESIGN CHOICE, log 14). -/
def State.reset : State where
  ie := false
  done := false
  err := false
  ovr := false
  errcode := 0
  cmd := 0
  modulus := 256
  dim := 3
  opa := 0
  opb := 0
  res := 0
  src := 0
  dst := 0
  len := 0
  outlen := 0
  bufAddr := 0
  vin := Vector.replicate 16 0
  vout := Vector.replicate 16 0
  mat0 := Vector.replicate 16 (Vector.replicate 16 0)
  mat1 := Vector.replicate 16 (Vector.replicate 16 0)
  buf := []
  engine := .idle
  resetInput := false
  bufEpoch := 0
  agenda := []
  reads := []

/-- The model faults of the HCE: none. Every error of a command is a defined outcome reported in STATUS,
"not a model fault" (R170), and every offset and buffer address exists (R40, R60) (DEDUCED, log 18, safe). -/
inductive Fault where
  deriving DecidableEq, Repr

/-- The reasons a step has no meaning. -/
inductive Refusal where
  /-- Raised by an arm of `exec` for a command that has no meaning yet; no arm does (safe). -/
  | notModelled (mnemonic : String)
  deriving DecidableEq, Repr

/-- What a command or a step answers. -/
abbrev Out := Host.Outcome State Fault Refusal

end Sys2Proof.Machine
end

