-- ==== Sys2Proof/Config.lean ====
section
/-! DEFINITION. The implementation parameters of the HCE (R6) and the values the spec leaves open. -/

namespace Sys2Proof.Config

/-- The value of the ID register (R6, R22). -/
def idValue : Word := 0x48434501

/-- The largest legal modulus (R6). -/
def mmax : Nat := 256

/-- The largest legal block dimension (R6). -/
def nmax : Nat := 16

/-- The size of BUF in bytes (R6, R60). -/
def bufBytes : Nat := 65536

/-- The size of the register window in bytes (R6, R61). -/
def windowBytes : Nat := 4096

/-- Free value: what a byte of BUF that nothing has written since hard reset holds, per hard reset and
address (R48; log 4). "It must not give such a byte the value 0": nothing is known of it. -/
opaque resetByte : Nat → Nat → Byte

/-- Free value: the engine steps of a command beyond its first, for a word and the state that accepts
it (R220; log 3). -/
opaque latExtra : Word → Machine.State → Nat

/-- LAT, the command latency in engine steps, at least 1 and finite (R6, R220). -/
def lat (w : Word) (s : Machine.State) : Nat := latExtra w s + 1

/-- OPEN parameter: HCE_BASE in units of 4096 bytes, so that the window is 4 KiB aligned (R61; log 9). -/
opaque hceBasePage : Nat

/-- HCE_BASE, the host address of the register window (R61). -/
def hceBase : Nat := windowBytes * hceBasePage

/-- OPEN parameter: HCE_IRQ, the host interrupt line that IRQ drives (R185; log 9). -/
opaque hceIrq : Nat

end Sys2Proof.Config
end

