-- ==== Sys2Proof/Machine/Ops.lean ====
section
/-! DEFINITION. The named operations over BUF and the registers, the two completions of a command
(with and without an error), acceptance, and the two resets. -/

namespace Sys2Proof.Machine

/-- BUF is in its canonical form: addresses strictly rising and below 65536 (R60, log 5). -/
abbrev Memory.wf (m : Memory) : Prop :=
  m.Pairwise (fun x y => x.1 < y.1) ∧ ∀ c ∈ m, c.1 < Config.bufBytes

/-- The byte written last at an address, if one was since hard reset (log 5). -/
def Memory.lookup (m : Memory) (a : Nat) : Option Byte := List.lookup a m

/-- The cells of consecutive bytes from an address. -/
def cellsFrom : Nat → List Byte → Memory
  | _, [] => []
  | a, b :: bs => (a, b) :: cellsFrom (a + 1) bs

/-- Store consecutive bytes from an address: the cells of that range are replaced, all others kept. -/
def Memory.store (m : Memory) (a : Nat) (bytes : List Byte) : Memory :=
  m.filter (fun c => c.1 < a) ++ cellsFrom a bytes ++ m.filter (fun c => a + bytes.length ≤ c.1)

/-- The byte BUF[a] (R60): the byte written last, else the unspecified content of BUF after the last
hard reset (R48; a free value, log 4). -/
def State.bufByte (s : State) (a : Nat) : Byte :=
  match s.buf.lookup a with
  | some b => b
  | none => Config.resetByte s.bufEpoch a

/-- `MemRead(a, n)` (R9). -/
def memRead (s : State) (a n : Nat) : List Byte :=
  (List.range n).map fun k => s.bufByte (a + k)

/-- `MemWrite(a, n, L)` with n the length of L (R9). -/
def memWrite (s : State) (a : Nat) (bytes : List Byte) : State :=
  { s with buf := s.buf.store a bytes }

/-- Matrix register MATs (R38). -/
def State.mat (s : State) : MatSel → MatReg
  | .m0 => s.mat0
  | .m1 => s.mat1

/-- Replace a matrix register (R38). -/
def State.setMat (s : State) (m : MatSel) (v : MatReg) : State :=
  match m with
  | .m0 => { s with mat0 := v }
  | .m1 => { s with mat1 := v }

/-- STATUS.BUSY: the engine state is BUSY (R24, R44). -/
def State.busy (s : State) : Bool :=
  match s.engine with
  | .idle => false
  | .busy _ => true

/-- The errors a command can raise; code 2 is reserved and never produced (R172). -/
inductive ErrorCode where
  | notInvertible
  | invalidBlockAlignment
  | corruptPadding
  | illegalCommand
  | badConfig
  | operandRange
  | bufferRange
  deriving DecidableEq, Repr

/-- The value of ERRCODE for an error (R172). -/
def ErrorCode.code : ErrorCode → BitVec 4
  | .notInvertible => 1
  | .invalidBlockAlignment => 3
  | .corruptPadding => 4
  | .illegalCommand => 5
  | .badConfig => 6
  | .operandRange => 7
  | .bufferRange => 8

/-- The completion of a command that raises an error: only STATUS changes (R44, R176). This is the one
shared operation for taking an error; CMD keeps the word that raised it (R173). -/
def completeError (e : ErrorCode) (s : State) : State :=
  { s with errcode := e.code, err := true, done := true, engine := .idle }

/-- The completion of a command without error, after its results are written (R44): DONE is set, ERRCODE
is 0 (R46), BUSY is cleared. ERR is not written; acceptance cleared it (DEDUCED, log 11). -/
def completeOk (s : State) : State :=
  { s with errcode := 0, done := true, engine := .idle }

/-- The first error whose condition holds, in the order of the list (R174). -/
def firstError : List (Bool × ErrorCode) → Option ErrorCode
  | [] => none
  | (c, e) :: rest => if c then some e else firstError rest

/-- A command as one step at completion (R44, R176): its checks in order of priority, then either the
error outcome, or every write of its rule at once. -/
def runCommand (checks : List (Bool × ErrorCode)) (commit : State → State) (s : State) : Out :=
  match firstError checks with
  | some e => .next (completeError e s)
  | none => .next (completeOk (commit s))

/-- A word enters the engine with the given number of engine steps before the completing one (R44). -/
def startCommand (w : Word) (left : Nat) (s : State) : State :=
  { s with cmd := w, engine := .busy left, done := false, err := false, errcode := 0 }

/-- Acceptance of a command word (R26, R44): it completes after LAT(w) engine steps (R220). -/
def accept (w : Word) (s : State) : State :=
  startCommand w (Config.lat w s - 1) s

/-- Soft reset (R202): every register at its reset value, any running command abandoned, BUF unchanged. -/
def softReset (s : State) : State :=
  { State.reset with
    buf := s.buf
    resetInput := s.resetInput
    bufEpoch := s.bufEpoch
    agenda := s.agenda
    reads := s.reads }

/-- Hard reset (R200): every register at its reset value, any running command abandoned, BUF unspecified
anew (log 4, log 7). -/
def hardReset (s : State) : State :=
  { State.reset with
    resetInput := s.resetInput
    bufEpoch := s.bufEpoch + 1
    agenda := s.agenda
    reads := s.reads }

end Sys2Proof.Machine
end

