-- ==== Sys2Proof/Machine/Operands.lean ====
section
/-! DEFINITION. The operands of the commands (R82) and the checks that come before a computation
(R120, R130, R141, R142). -/

namespace Sys2Proof.Machine

/-- M, the modulus (R27). -/
def State.M (s : State) : Nat := s.modulus.toNat

/-- N, the block dimension (R28). -/
def State.N (s : State) : Nat := s.dim.toNat

/-- MAT[m][i][j] for i, j < 16 (R9, R38). No command reads an entry with an index of 16 or more, since
N ≤ 16 is checked first (log 19). -/
def State.entry (s : State) (m : MatSel) (i j : Nat) : Nat :=
  if h : i < 16 ∧ j < 16 then (((s.mat m)[i]'h.1)[j]'h.2).toNat else 0

/-- VIN[j] for j < 16 (R9, R36); as for `State.entry` (log 19). -/
def State.vinAt (s : State) (j : Nat) : Nat :=
  if h : j < 16 then (s.vin[j]'h).toNat else 0

/-- The top-left N x N entries of MAT[m], by rows. -/
def keyRows (s : State) (m : MatSel) : List (List Nat) := tab s.N (s.entry m)

/-- The same entries as integers. -/
def keyInts (s : State) (m : MatSel) : List (List Int) := tab s.N fun i j => (s.entry m i j : Int)

/-- [VIN[0], ..., VIN[N-1]] (R130). -/
def vinList (s : State) : List Nat := (List.range s.N).map s.vinAt

/-- det(A) mod M (R121). -/
def keyDet (s : State) (m : MatSel) : Nat := residue (det s.N (keyInts s m)) s.M

/-- adj(A)[i][j] mod M (R124). -/
def keyAdj (s : State) (m : MatSel) (i j : Nat) : Nat := residue (adjEntry s.N (keyInts s m) i j) s.M

/-- (di * adj(A)[i][j]) mod M with di the inverse of the determinant (R127). -/
def keyInv (s : State) (m : MatSel) (i j : Nat) : Nat :=
  residue ((invMod (keyDet s m) s.M : Int) * adjEntry s.N (keyInts s m) i j) s.M

/-- The dimension is outside 1 to 16 (R28, R144). -/
def badDim (s : State) : Bool := s.N < 1 || Config.nmax < s.N

/-- `CheckConfig` fails (R120). -/
def badConfig (s : State) : Bool := s.M < 2 || Config.mmax < s.M || badDim s

/-- `CheckMatrix(m)` fails: an entry of the top-left N x N is M or more (R120). -/
def badMatrix (s : State) (m : MatSel) : Bool := (keyRows s m).any fun row => row.any fun x => s.M ≤ x

/-- An entry of VIN that MATVEC uses is M or more (R130). -/
def badVector (s : State) : Bool := (vinList s).any fun x => s.M ≤ x

/-- The determinant is not coprime to M (R120, R127). -/
def singular (s : State) (m : MatSel) : Bool := Nat.gcd (keyDet s m) s.M != 1

/-- `CheckRegions(maxout)` fails (R141). -/
def badRegions (s : State) (maxout : Nat) : Bool :=
  let src := s.src.toNat
  let dst := s.dst.toNat
  let len := s.len.toNat
  Config.bufBytes < src + len || Config.bufBytes < dst + maxout ||
    (0 < len && 0 < maxout && src < dst + maxout && dst < src + len)

/-- `CheckSymbols(L)` fails (R142). -/
def badSymbols (s : State) (bytes : List Byte) : Bool := bytes.any fun b => s.M ≤ b.toNat

/-- The input region, `MemRead(SRC, LEN)` (R73). -/
def inputBytes (s : State) : List Byte := memRead s s.src.toNat s.len.toNat

/-- A matrix register with its top-left N x N entries replaced and the others kept (R38, R124). -/
def withTopLeft (old : MatReg) (N : Nat) (f : Nat → Nat → Nat) : MatReg :=
  Vector.ofFn fun i => Vector.ofFn fun j =>
    if i.val < N ∧ j.val < N then BitVec.ofNat 16 (f i.val j.val) else old[i][j]

/-- A vector register with its first N entries replaced and the others kept (R37, R130). -/
def withFirst (old : Vector Entry 16) (N : Nat) (f : Nat → Nat) : Vector Entry 16 :=
  Vector.ofFn fun i => if i.val < N then BitVec.ofNat 16 (f i.val) else old[i]

end Sys2Proof.Machine
end

