-- ==== Sys2Proof/Machine/Codec.lean ====
section
/-! DEFINITION. The block codec: PAD, UNPAD, ENC, DEC (R140 to R158). -/

namespace Sys2Proof.Machine

/-- p = (N - len mod N) mod N (R144). -/
def padLen (N len : Nat) : Nat := (N - len % N) % N

/-- The PaddedBuffer: the input with p bytes of value p after it (R144). -/
def paddedInput (s : State) : List Byte :=
  let p := padLen s.N s.len.toNat
  inputBytes s ++ List.replicate p (BitVec.ofNat 8 p)

/-- The transform of a number of Blocks, one after the other: Block b is the N bytes from b N on, and its
transform lands at the same positions (R140, R156). -/
def transformBlocks (N M : Nat) (A : List (List Nat)) : Nat → List Byte → List Byte
  | 0, _ => []
  | k + 1, bytes =>
    (matVecMod M A ((bytes.take N).map BitVec.toNat)).map (BitVec.ofNat 8) ++
      transformBlocks N M A k (bytes.drop N)

/-- The padding length read from the last byte; 0 for empty data (R145, R146). -/
def padByte (bytes : List Byte) : Nat := (bytes.getLast?.getD 0).toNat

/-- What PAD, UNPAD, ENC and DEC write: the output at DST, its length and p (R47). -/
def commitCodec (out : List Byte) (p : Nat) (t : State) : State :=
  { memWrite t t.dst.toNat out with
    outlen := BitVec.ofNat 17 out.length
    res := BitVec.ofNat 32 p }

/-- PAD (R144). It does not read MOD. -/
def execPad (s : State) : Out :=
  let p := padLen s.N s.len.toNat
  runCommand
    [(badDim s, .badConfig), (badRegions s (s.len.toNat + p), .bufferRange)]
    (commitCodec (paddedInput s) p) s

/-- UNPAD (R146). It reads neither MOD nor DIM, and checks only that p ≤ len (R147). -/
def execUnpad (s : State) : Out :=
  let len := s.len.toNat
  let p := padByte (inputBytes s)
  runCommand
    [(badRegions s len, .bufferRange), (len < p, .corruptPadding)]
    (commitCodec ((inputBytes s).take (len - p)) p) s

/-- The ciphertext of ENC: every Block of the padded input times the key (R149). -/
def cipherBytes (s : State) (m : MatSel) : List Byte :=
  transformBlocks s.N s.M (keyRows s m) ((paddedInput s).length / s.N) (paddedInput s)

/-- ENC (R149). It does not test whether the key is invertible (R150). -/
def execEnc (m : MatSel) (s : State) : Out :=
  let p := padLen s.N s.len.toNat
  runCommand
    [(badConfig s, .badConfig), (badRegions s (s.len.toNat + p), .bufferRange),
      (badMatrix s m, .operandRange), (badSymbols s (paddedInput s), .operandRange)]
    (commitCodec (cipherBytes s m) p) s

/-- The plaintext of DEC before unpadding: every Block of the input times the inverse key (R152). -/
def plainBytes (s : State) (m : MatSel) : List Byte :=
  transformBlocks s.N s.M (tab s.N (keyInv s m)) ((inputBytes s).length / s.N) (inputBytes s)

/-- DEC (R152): it takes the key itself and inverts it inside the command (R151); the checks come in the
order of R153. -/
def execDec (m : MatSel) (s : State) : Out :=
  let len := s.len.toNat
  let p := padByte (plainBytes s m)
  runCommand
    [(badConfig s, .badConfig), (badRegions s len, .bufferRange),
      (badMatrix s m, .operandRange), (badSymbols s (inputBytes s), .operandRange),
      (singular s m, .notInvertible), (len % s.N != 0, .invalidBlockAlignment),
      (len < p, .corruptPadding)]
    (commitCodec ((plainBytes s m).take (len - p)) p) s

end Sys2Proof.Machine
end

