-- ==== Sys2Proof/Machine/Matrix.lean ====
section
/-! DEFINITION. The matrix unit: DET, ADJ, INV, MATVEC (R120 to R131). -/

namespace Sys2Proof.Machine

/-- DET (R121): RES becomes det(A) mod M; a singular matrix is no error. -/
def execDet (m : MatSel) (s : State) : Out :=
  runCommand
    [(badConfig s, .badConfig), (badMatrix s m, .operandRange)]
    (fun t => { t with res := BitVec.ofNat 32 (keyDet s m) }) s

/-- ADJ (R124): the top-left N x N of MAT[d] becomes adj(A) mod M, computed from the matrix as it was
before the command also when d = m (R128). -/
def execAdj (d m : MatSel) (s : State) : Out :=
  runCommand
    [(badConfig s, .badConfig), (badMatrix s m, .operandRange)]
    (fun t => t.setMat d (withTopLeft (s.mat d) s.N (keyAdj s m))) s

/-- INV (R127): the top-left N x N of MAT[d] becomes the inverse of A modulo M and RES det(A) mod M,
computed from the matrix as it was before the command also when d = m (R128). -/
def execInv (d m : MatSel) (s : State) : Out :=
  runCommand
    [(badConfig s, .badConfig), (badMatrix s m, .operandRange), (singular s m, .notInvertible)]
    (fun t =>
      { t.setMat d (withTopLeft (s.mat d) s.N (keyInv s m)) with
        res := BitVec.ofNat 32 (keyDet s m) }) s

/-- MATVEC (R130): VOUT[0..N-1] becomes A times VIN modulo M; the key need not be invertible. -/
def execMatvec (m : MatSel) (s : State) : Out :=
  runCommand
    [(badConfig s, .badConfig), (badMatrix s m, .operandRange), (badVector s, .operandRange)]
    (fun t =>
      { t with
        vout := withFirst s.vout s.N fun i => (matVecMod s.M (keyRows s m) (vinList s)).getD i 0 }) s

end Sys2Proof.Machine
end

