-- ==== Sys2Proof/Machine/Scalar.lean ====
section
/-! DEFINITION. The scalar unit: NOP, GCD, MODINV (R99 to R104). -/

namespace Sys2Proof.Machine

/-- NOP (R100): nothing but the completion. -/
def execNop (s : State) : Out := runCommand [] id s

/-- GCD (R102): RES becomes gcd(OPA, OPB), with gcd(a, 0) = a and gcd(0, 0) = 0 (R10). -/
def execGcd (s : State) : Out :=
  runCommand [] (fun t => { t with res := BitVec.ofNat 32 (Nat.gcd s.opa.toNat s.opb.toNat) }) s

/-- MODINV (R104): RES becomes the inverse of OPA modulo OPB. -/
def execModinv (s : State) : Out :=
  let a := s.opa.toNat
  let m := s.opb.toNat
  runCommand
    [(m < 2, .operandRange), (Nat.gcd (a % m) m != 1, .notInvertible)]
    (fun t => { t with res := BitVec.ofNat 32 (invMod a m) }) s

end Sys2Proof.Machine
end

