-- ==== Sys2Proof/Machine/Dispatch.lean ====
section
/-! DEFINITION. The meaning of every command: its completion as one step (R11, R44). -/

namespace Sys2Proof.Machine

def exec (i : Instr) (s : State) : Host.Outcome State Fault Refusal :=
  match i with
  | .nop => Sys2Proof.Machine.execNop s
  | .gcd => Sys2Proof.Machine.execGcd s
  | .modinv => Sys2Proof.Machine.execModinv s
  | .det m => Sys2Proof.Machine.execDet m s
  | .adj d m => Sys2Proof.Machine.execAdj d m s
  | .inv d m => Sys2Proof.Machine.execInv d m s
  | .matvec m => Sys2Proof.Machine.execMatvec m s
  | .pad => Sys2Proof.Machine.execPad s
  | .unpad => Sys2Proof.Machine.execUnpad s
  | .enc m => Sys2Proof.Machine.execEnc m s
  | .dec m => Sys2Proof.Machine.execDec m s

end Sys2Proof.Machine
end

