-- ==== Sys2Proof/Machine/Flags.lean ====
section
/-! DEFINITION. The flags: the STATUS and CTRL words, write-1-to-clear, and the interrupt output. -/

namespace Sys2Proof.Machine

/-- STATUS as the host reads it: `{0, ERRCODE, 0, OVR, ERR, DONE, BUSY}` (R24). -/
def statusWord (s : State) : Word :=
  0#20 ++ s.errcode ++ 0#4 ++ BitVec.ofBool s.ovr ++ BitVec.ofBool s.err ++ BitVec.ofBool s.done ++
    BitVec.ofBool s.busy

/-- A host write of w to STATUS: DONE, ERR and OVR are cleared where w has a 1 (R25). -/
def clearStatus (w : Word) (s : State) : State :=
  { s with
    done := s.done && !w.getLsbD 1
    err := s.err && !w.getLsbD 2
    ovr := s.ovr && !w.getLsbD 3 }

/-- CTRL as the host reads it: IE in bit 0, SRST reads 0 (R23). -/
def ctrlWord (s : State) : Word := 0#31 ++ BitVec.ofBool s.ie

/-- A host write of w to CTRL: a soft reset if SRST is 1, which discards IE; else IE (R23, R202). -/
def writeCtrl (w : Word) (s : State) : State :=
  if w.getLsbD 1 then softReset s else { s with ie := w.getLsbD 0 }

/-- A host write is dropped because BUSY = 1: OVR is set and nothing else changes (R42). -/
def dropWrite (s : State) : State := { s with ovr := true }

/-- The interrupt output (R185). -/
def State.irq (s : State) : Bool := s.ie && s.done

/-- The level of a host interrupt line as far as the HCE drives it: IRQ on line HCE_IRQ (R185, log 9). -/
def State.hostIrqLine (s : State) (line : Nat) : Bool := line == Config.hceIrq && s.irq

end Sys2Proof.Machine
end

