-- ==== Sys2Proof/Machine/Window.lean ====
section
/-! DEFINITION. The register window: the map of offsets, reads and writes of a register, and host
accesses with their checks (R22 to R43, R63). -/

namespace Sys2Proof.Machine

/-- The register at an offset that is a multiple of 4; none where the offset is reserved (R39). -/
def regAt (o : BitVec 12) : Option Reg :=
  let n := o.toNat
  if n % 4 ≠ 0 then none
  else if n = 0x000 then some .id
  else if n = 0x004 then some .ctrl
  else if n = 0x008 then some .status
  else if n = 0x00C then some .cmd
  else if n = 0x010 then some .mod
  else if n = 0x014 then some .dim
  else if n = 0x018 then some .opa
  else if n = 0x01C then some .opb
  else if n = 0x020 then some .res
  else if n = 0x024 then some .src
  else if n = 0x028 then some .dst
  else if n = 0x02C then some .len
  else if n = 0x030 then some .outlen
  else if n = 0x034 then some .bufAddr
  else if n = 0x038 then some .bufData
  else if 0x100 ≤ n ∧ n < 0x140 then some (.vin (Fin.ofNat 16 (n / 4)))
  else if 0x200 ≤ n ∧ n < 0x240 then some (.vout (Fin.ofNat 16 (n / 4)))
  else if 0x400 ≤ n ∧ n < 0x800 then some (.mat .m0 (Fin.ofNat 16 (n / 64)) (Fin.ofNat 16 (n / 4)))
  else if 0x800 ≤ n ∧ n < 0xC00 then some (.mat .m1 (Fin.ofNat 16 (n / 64)) (Fin.ofNat 16 (n / 4)))
  else none

/-- The offset of a register (R36 to R39). -/
def regOffset : Reg → BitVec 12
  | .id => 0x000
  | .ctrl => 0x004
  | .status => 0x008
  | .cmd => 0x00C
  | .mod => 0x010
  | .dim => 0x014
  | .opa => 0x018
  | .opb => 0x01C
  | .res => 0x020
  | .src => 0x024
  | .dst => 0x028
  | .len => 0x02C
  | .outlen => 0x030
  | .bufAddr => 0x034
  | .bufData => 0x038
  | .vin j => BitVec.ofNat 12 (0x100 + 4 * j.val)
  | .vout i => BitVec.ofNat 12 (0x200 + 4 * i.val)
  | .mat .m0 i j => BitVec.ofNat 12 (0x400 + 4 * (16 * i.val + j.val))
  | .mat .m1 i j => BitVec.ofNat 12 (0x800 + 4 * (16 * i.val + j.val))

/-- The value a register reads as, without the side effect of BUF_DATA (R22 to R38). Fields read
zero-extended, reserved bits 0 (R40). -/
def readReg (s : State) : Reg → Word
  | .id => Config.idValue
  | .ctrl => ctrlWord s
  | .status => statusWord s
  | .cmd => s.cmd
  | .mod => s.modulus.setWidth 32
  | .dim => s.dim.setWidth 32
  | .opa => s.opa
  | .opb => s.opb
  | .res => s.res
  | .src => s.src.setWidth 32
  | .dst => s.dst.setWidth 32
  | .len => s.len.setWidth 32
  | .outlen => s.outlen.setWidth 32
  | .bufAddr => s.bufAddr.setWidth 32
  | .bufData => (s.bufByte s.bufAddr.toNat).setWidth 32
  | .vin j => s.vin[j].setWidth 32
  | .vout i => s.vout[i].setWidth 32
  | .mat m i j => (s.mat m)[i][j].setWidth 32

/-- BUF_ADDR advances by one modulo 65536 (R35). -/
def advanceBufAddr (s : State) : State := { s with bufAddr := s.bufAddr + 1 }

/-- A matrix register with one entry replaced (R38). -/
def setEntry (v : MatReg) (i j : Fin 16) (x : Entry) : MatReg := v.set i (v[i].set j x)

/-- A host write of w to a register that is performed (R22 to R38): a field keeps the low bits of w, a
read-only register ignores it (R40). -/
def writeReg (s : State) (r : Reg) (w : Word) : State :=
  match r with
  | .id => s
  | .ctrl => writeCtrl w s
  | .status => clearStatus w s
  | .cmd => accept w s
  | .mod => { s with modulus := w.setWidth 9 }
  | .dim => { s with dim := w.setWidth 5 }
  | .opa => { s with opa := w }
  | .opb => { s with opb := w }
  | .res => s
  | .src => { s with src := w.setWidth 16 }
  | .dst => { s with dst := w.setWidth 16 }
  | .len => { s with len := w.setWidth 17 }
  | .outlen => s
  | .bufAddr => { s with bufAddr := w.setWidth 16 }
  | .bufData => advanceBufAddr (memWrite s s.bufAddr.toNat [w.setWidth 8])
  | .vin j => { s with vin := s.vin.set j (w.setWidth 16) }
  | .vout _ => s
  | .mat m i j => s.setMat m (setEntry (s.mat m) i j (w.setWidth 16))

/-- A write to this register is performed also while BUSY = 1 (R42). -/
def writableWhileBusy : Option Reg → Bool
  | some .ctrl | some .status => true
  | _ => false

/-- A host access is performed only if it is a 32-bit access at a multiple of 4 (R63). -/
def accessPerformed (width : AccessWidth) (o : BitVec 12) : Bool :=
  width == .word && o.toNat % 4 == 0

/-- A host write (R42, R63): not performed unless it is an aligned 32-bit access; dropped with OVR while
BUSY = 1 unless it goes to CTRL or STATUS; ignored at a reserved offset (R40). -/
def hostWrite (width : AccessWidth) (o : BitVec 12) (w : Word) (s : State) : State :=
  if accessPerformed width o then
    if s.busy && !writableWhileBusy (regAt o) then dropWrite s
    else
      match regAt o with
      | some r => writeReg s r w
      | none => s
  else s

/-- The value a host read returns: 0 where it is not performed (R63) and at a reserved offset (R40). -/
def hostReadValue (width : AccessWidth) (o : BitVec 12) (s : State) : Word :=
  if accessPerformed width o then
    match regAt o with
    | some r => readReg s r
    | none => 0
  else 0

/-- The state after a host read: only a performed read of BUF_DATA has a side effect (R35, R65). -/
def hostReadEffect (width : AccessWidth) (o : BitVec 12) (s : State) : State :=
  if accessPerformed width o && regAt o == some .bufData then advanceBufAddr s else s

/-- A host read: its side effect, and its value recorded by the host (R35, R87). -/
def hostRead (width : AccessWidth) (o : BitVec 12) (s : State) : State :=
  { hostReadEffect width o s with reads := s.reads ++ [hostReadValue width o s] }

/-- The host address of byte lane k of the word at an offset (R62). -/
def laneAddress (o : BitVec 12) (k : Fin 4) : Nat := Config.hceBase + o.toNat + k.val

/-- The bits that byte lane k of a word carries on the host bus: 8k+7 to 8k (R62). -/
def laneBits (w : Word) (k : Fin 4) : Byte := w.extractLsb' (8 * k.val) 8

/-- The offset a host address selects in the window, if it lies in it (R61). -/
def windowOffset (a : Nat) : Option (BitVec 12) :=
  if Config.hceBase ≤ a ∧ a < Config.hceBase + Config.windowBytes then
    some (BitVec.ofNat 12 (a - Config.hceBase))
  else none

end Sys2Proof.Machine
end

