-- ==== Sys2Proof/Machine/Engine.lean ====
section
/-! DEFINITION. The engine state machine (R44) and the performance of one event. -/

namespace Sys2Proof.Machine

/-- `Exec(w, state)` of R44 with its completion: the meaning of the command, or ILLEGAL_COMMAND for a word
that matches none (R84). -/
def execWord (w : Word) (s : State) : Out :=
  match decode w with
  | .ok i => exec i s
  | .error _ => runCommand [(true, .illegalCommand)] id s

/-- One engine step (R44): nothing while IDLE (R201), one step nearer to completion while BUSY, and the
completion itself at the last step. -/
def engineStep (s : State) : Out :=
  match s.engine with
  | .idle => .next s
  | .busy (k + 1) => .next { s with engine := .busy k }
  | .busy 0 => execWord s.cmd s

/-- `WAIT` (R87): a poll of STATUS; if DONE is 0, the engine gets a step and the host polls again
(DESIGN CHOICE, log 6). -/
def hostWait (s : State) : State :=
  if s.done then s else { s with agenda := .engine :: .wait :: s.agenda }

/-- One event while the reset input is asserted, or its release (R200): every register holds its hard-reset
value before and after the event, the engine is IDLE, BUF is unspecified anew. So a host write, a command
word included, has no effect and an engine step does nothing; a host read returns the value the register
holds, without a side effect (DEDUCED, log 7). -/
def performInReset (e : Event) (s : State) : State :=
  let t := hardReset s
  match e with
  | .write _ _ _ | .engine => t
  | .read width o => { t with reads := t.reads ++ [hostReadValue width o t] }
  | .wait => hostWait t
  | .resetInput level => { t with resetInput := level }

/-- The reset input takes a level while it is released (R200): its assertion is the hard reset. -/
def setResetInput (level : Bool) (s : State) : State :=
  if level then { hardReset s with resetInput := true } else s

/-- One event while the reset input is released. -/
def performRunning (e : Event) (s : State) : Out :=
  match e with
  | .write width o w => .next (hostWrite width o w s)
  | .read width o => .next (hostRead width o s)
  | .wait => .next (hostWait s)
  | .engine => engineStep s
  | .resetInput level => .next (setResetInput level s)

/-- One event, on the state whose agenda no longer holds it. -/
def perform (e : Event) (s : State) : Out :=
  if s.resetInput then .next (performInReset e s) else performRunning e s

end Sys2Proof.Machine
end

