-- ==== Sys2Proof/Machine/Step.lean ====
section
/-! DEFINITION. One step of the machine: the next event of the agenda, or an engine step. -/

namespace Sys2Proof.Machine

/-- One step: the next item of the total order of host accesses and engine steps (R68); with no item
left the host does nothing more and the engine takes a step (log 1, log 2). -/
def step (s : State) : Out :=
  match s.agenda with
  | [] => perform .engine s
  | e :: rest => perform e { s with agenda := rest }

/-- The state in which a command word stands in CMD, accepted, and the very next step is the engine's
completing step (R44; log 8), with the reset input released: the word of `nbits` bits with value `w`, the
bits above 0. -/
def State.withFetchWord (s : State) (nbits w : Nat) : State :=
  { startCommand (BitVec.ofNat 32 (w % 2 ^ nbits)) 0 s with
    resetInput := false
    agenda := .engine :: s.agenda }

end Sys2Proof.Machine
end

