-- ==== Sys2Proof/Machine/HostProgram.lean ====
section
/-! DEFINITION. The host program notation and its pseudo-instructions as bus events (R87, R88). -/

namespace Sys2Proof.Machine

/-- `WR <reg>, <value>`: one aligned 32-bit write (R87). -/
def wrEvent (r : Reg) (v : Word) : Event := .write .word (regOffset r) v

/-- `RD <reg>`: one aligned 32-bit read (R87). -/
def rdEvent (r : Reg) : Event := .read .word (regOffset r)

/-- `CMD <syntax>`: a write of the encoding to CMD (R87). -/
def cmdEvent (i : Instr) : Event := wrEvent .cmd (encode i)

/-- The writes of one row of a matrix, from a column on (R88). -/
def loadRow (m : MatSel) (i : Nat) : Nat → List Word → List Event
  | _, [] => []
  | j, v :: vs => wrEvent (.mat m (Fin.ofNat 16 i) (Fin.ofNat 16 j)) v :: loadRow m i (j + 1) vs

/-- The writes of the rows of a matrix, from a row on (R88). -/
def loadRows (m : MatSel) : Nat → List (List Word) → List Event
  | _, [] => []
  | i, r :: rs => loadRow m i 0 r ++ loadRows m (i + 1) rs

/-- The writes of VIN, from an entry on (R88). -/
def loadVin : Nat → List Word → List Event
  | _, [] => []
  | j, v :: vs => wrEvent (.vin (Fin.ofNat 16 j)) v :: loadVin (j + 1) vs

/-- The expansion of a host operation (R87, R88). -/
def expandOp : HostOp → List Event
  | .wr r v => [wrEvent r v]
  | .rd r => [rdEvent r]
  | .cmd i => [cmdEvent i]
  | .wait => [.wait]
  | .loadMat m _ rows => loadRows m 0 rows
  | .loadVec _ vals => loadVin 0 vals
  | .bufWrite a bytes =>
    wrEvent .bufAddr (a.setWidth 32) :: bytes.map fun b => wrEvent .bufData (b.setWidth 32)
  | .bufRead a k => wrEvent .bufAddr (a.setWidth 32) :: List.replicate k (rdEvent .bufData)
  | .run i => [cmdEvent i, .wait]
  | .kinv => [cmdEvent (.inv .m1 .m0), .wait]
  | .clrStat => [wrEvent .status 0x0000000E]

/-- A host program as the agenda of events it stands for. -/
def expandProgram (ops : List HostOp) : List Event := ops.flatMap expandOp

end Sys2Proof.Machine
end

