-- ==== Sys2Proof/Safety.lean ====
section
/-! DEFINITION. What every reachable state satisfies, what a safe run is, and the terms in which claims
speak of operands and outcomes, written from the spec's rules and not from the meanings. -/

namespace Sys2Proof.Machine

/-- ERRCODE holds a code that HCE version 1 can produce: 0, 1 or 3 to 8 (R172). -/
def errcodeProduced (c : BitVec 4) : Bool :=
  c == 0 || c == 1 || (3 ≤ c.toNat && c.toNat ≤ 8)

/-- The invariant of the HCE: BUF is in canonical form; while BUSY, DONE, ERR and ERRCODE are 0 (R43);
ERR says that the last completed command raised an error (R24); ERRCODE is a code that can be produced
(R172); every entry of VOUT is a residue of some legal modulus (R37); an output fits BUF (R33, R141); while
the reset input is asserted, every register holds its reset value and the engine is IDLE (R200). -/
structure State.Inv (s : State) : Prop where
  bufWf : s.buf.wf
  busyClear : s.busy = true → s.done = false ∧ s.err = false ∧ s.errcode = 0
  errHasCode : s.err = true → s.errcode ≠ 0
  codeProduced : errcodeProduced s.errcode = true
  voutResidue : ∀ i : Fin 16, s.vout[i].toNat < 256
  outlenFits : s.outlen.toNat ≤ 65536
  heldInReset : s.resetInput = true → s =
    { State.reset with
      resetInput := true, bufEpoch := s.bufEpoch, agenda := s.agenda, reads := s.reads }

/-- A run of the machine for a number of steps, stopping at the first fault or refusal. -/
def runSteps : Nat → State → Out
  | 0, s => .next s
  | k + 1, s =>
    match step s with
    | .next t => runSteps k t
    | .fault r => .fault r
    | .refused r => .refused r

/-- A run is safe if no step of it stops: every step answers a next state. -/
def SafeFrom (s : State) : Prop := ∀ k : Nat, ∃ t, runSteps k s = .next t

/-! ### Outcomes -/

/-- The state after the completion of a command without error, its results being written already: DONE
is 1, ERRCODE 0, the engine IDLE (R44, R46). -/
def State.succeeded (s : State) : State := { s with errcode := 0, done := true, engine := .idle }

/-- The state after a completion with an error code: only STATUS changed (R176). -/
def State.failedWith (s : State) (code : BitVec 4) : State :=
  { s with errcode := code, err := true, done := true, engine := .idle }

/-! ### Operands -/

/-- The configuration is one that commands accept (R27, R28, R120). -/
abbrev ConfigOk (s : State) : Prop := 2 ≤ s.M ∧ s.M ≤ 256 ∧ 1 ≤ s.N ∧ s.N ≤ 16

/-- Every entry of the top-left N x N of MAT[m] is below M (R120). -/
abbrev MatrixOk (s : State) (m : MatSel) : Prop := ∀ i < s.N, ∀ j < s.N, s.entry m i j < s.M

/-- Every entry VIN[j] with j < N is below M (R130). -/
abbrev VectorOk (s : State) : Prop := ∀ j < s.N, s.vinAt j < s.M

/-- The regions lie in BUF and are disjoint, for a largest output length (R141). -/
abbrev RegionsOk (s : State) (maxout : Nat) : Prop :=
  s.src.toNat + s.len.toNat ≤ 65536 ∧ s.dst.toNat + maxout ≤ 65536 ∧
    ¬(0 < s.len.toNat ∧ 0 < maxout ∧ s.src.toNat < s.dst.toNat + maxout ∧
      s.dst.toNat < s.src.toNat + s.len.toNat)

/-- A as an integer matrix: the top-left N x N of MAT[m]. -/
def keyMatrix (s : State) (m : MatSel) : Matrix (Fin s.N) (Fin s.N) ℤ :=
  fun i j => (s.entry m i.val j.val : ℤ)

/-- det(A) mod M (R10, R121); `Matrix.det` is the permutation sum. -/
def detMod (s : State) (m : MatSel) : Nat := ((keyMatrix s m).det % (s.M : ℤ)).toNat

/-- The index, in the whole matrix, of row or column k of a minor without row or column r (R10). -/
def minorIndex (r k : Nat) : Nat := if k < r then k else k + 1

/-- adj(A)[i][j] = (-1)^(i+j) det(minor(A, j, i)) (R10). -/
def adjugateEntry (s : State) (m : MatSel) (i j : Nat) : ℤ :=
  (-1) ^ (i + j) * Matrix.det fun a b : Fin (s.N - 1) =>
    (s.entry m (minorIndex j a.val) (minorIndex i b.val) : ℤ)

/-- (di adj(A)[i][j]) mod M (R127). -/
def inverseEntry (s : State) (m : MatSel) (di i j : Nat) : Nat :=
  ((di : ℤ) * adjugateEntry s m i j % (s.M : ℤ)).toNat

/-- di is inv_mod(det(A) mod M, M) (R10, R127). -/
abbrev IsDetInverse (s : State) (m : MatSel) (di : Nat) : Prop :=
  di < s.M ∧ detMod s m * di % s.M = 1

/-- Byte k of the PaddedBuffer: the input byte below LEN, the padding length p from there on (R144). -/
def paddedByte (s : State) (p k : Nat) : Nat :=
  if k < s.len.toNat then (s.bufByte (s.src.toNat + k)).toNat else p

/-- Byte k of the ciphertext of ENC (R149): element k mod N of the transform of Block k / N (R140). -/
def cipherByte (s : State) (m : MatSel) (p k : Nat) : Nat :=
  (∑ j ∈ Finset.range s.N, s.entry m (k % s.N) j * paddedByte s p (k / s.N * s.N + j)) % s.M

/-- Byte k of the plaintext of DEC before unpadding (R152), with di the inverse of the determinant. -/
def plainByte (s : State) (m : MatSel) (di k : Nat) : Nat :=
  (∑ j ∈ Finset.range s.N, inverseEntry s m di (k % s.N) j *
    (s.bufByte (s.src.toNat + (k / s.N * s.N + j))).toNat) % s.M

/-- p = (N - LEN mod N) mod N (R144). -/
def padding (s : State) : Nat := (s.N - s.len.toNat % s.N) % s.N

/-- The last byte of the input, 0 for empty input (R145, R146). -/
def lastInput (s : State) : Nat :=
  if s.len.toNat = 0 then 0 else (s.bufByte (s.src.toNat + (s.len.toNat - 1))).toNat

/-- The last byte of the plaintext, 0 for empty data (R152). -/
def lastPlain (s : State) (m : MatSel) (di : Nat) : Nat :=
  if s.len.toNat = 0 then 0 else plainByte s m di (s.len.toNat - 1)

/-- What a codec command leaves: `out` at DST for `n` bytes and no other byte of BUF changed, OUTLEN n,
RES p (R47). -/
def State.codecDone (s t : State) (n p : Nat) (out : Nat → Nat) : Prop :=
  t = { s with buf := t.buf, outlen := BitVec.ofNat 17 n, res := BitVec.ofNat 32 p }.succeeded ∧
    (∀ k < n, t.bufByte (s.dst.toNat + k) = BitVec.ofNat 8 (out k)) ∧
    ∀ x, x < s.dst.toNat ∨ s.dst.toNat + n ≤ x → t.bufByte x = s.bufByte x

end Sys2Proof.Machine
end

