-- ==== Sys2Proof/Certificates/Slice0/Obligations.lean ====
section
/-! DEFINITION. The statements for the provers, from the numbered rules of the spec. -/

open Sys2Proof Sys2Proof.Machine

namespace Sys2Proof.Machine

/-! ### Words of the statements -/

/-- The bit S of a command word for a source matrix (R80). -/
def bitS (m : MatSel) : Word := if m = .m1 then 0x100 else 0

/-- The bit D of a command word for a destination matrix (R80). -/
def bitD (m : MatSel) : Word := if m = .m1 then 0x200 else 0

/-- The command writes RES on success (R30, R47). -/
def writesRes : Instr → Bool
  | .gcd | .modinv | .det _ | .inv _ _ | .pad | .unpad | .enc _ | .dec _ => true
  | .nop | .adj _ _ | .matvec _ => false

/-- The command writes BUF and OUTLEN on success (R33, R47). -/
def writesBuf : Instr → Bool
  | .pad | .unpad | .enc _ | .dec _ => true
  | .nop | .gcd | .modinv | .det _ | .adj _ _ | .inv _ _ | .matvec _ => false

/-- The command writes VOUT on success (R37, R47). -/
def writesVout : Instr → Bool
  | .matvec _ => true
  | .nop | .gcd | .modinv | .det _ | .adj _ _ | .inv _ _ | .pad | .unpad | .enc _ | .dec _ => false

/-- The matrix register the command writes on success (R38, R47). -/
def writesMat : Instr → Option MatSel
  | .adj d _ | .inv d _ => some d
  | .nop | .gcd | .modinv | .det _ | .matvec _ | .pad | .unpad | .enc _ | .dec _ => none

/-- Two states agree on MOD, DIM and the top-left N x N of MAT[m] (R82). -/
def sameKey (s s' : State) (m : MatSel) : Prop :=
  s.modulus = s'.modulus ∧ s.dim = s'.dim ∧ ∀ i < s.N, ∀ j < s.N, s.entry m i j = s'.entry m i j

/-- Two states agree on SRC, DST, LEN and the input region (R82, R73). -/
def sameInput (s s' : State) : Prop :=
  s.src = s'.src ∧ s.dst = s'.dst ∧ s.len = s'.len ∧
    ∀ k < s.len.toNat, s.bufByte (s.src.toNat + k) = s'.bufByte (s.src.toNat + k)

/-- Two states agree on what a command reads (R82). -/
def sameOperands (i : Instr) (s s' : State) : Prop :=
  match i with
  | .nop => True
  | .gcd | .modinv => s.opa = s'.opa ∧ s.opb = s'.opb
  | .det m | .adj _ m | .inv _ m => sameKey s s' m
  | .matvec m => sameKey s s' m ∧ ∀ j < s.N, s.vinAt j = s'.vinAt j
  | .pad => s.dim = s'.dim ∧ sameInput s s'
  | .unpad => sameInput s s'
  | .enc m | .dec m => sameKey s s' m ∧ sameInput s s'

/-- Two states agree on the outcome of a command and on all it writes on success (R47). -/
def sameResults (i : Instr) (N dst : Nat) (t t' : State) : Prop :=
  t.errcode = t'.errcode ∧
    (t.errcode = 0 →
      (writesRes i = true → t.res = t'.res) ∧
      (writesVout i = true → ∀ k : Fin 16, k.val < N → t.vout[k] = t'.vout[k]) ∧
      (∀ d, writesMat i = some d → ∀ a < N, ∀ b < N, t.entry d a b = t'.entry d a b) ∧
      (writesBuf i = true → t.outlen = t'.outlen ∧
        ∀ k < t.outlen.toNat, t.bufByte (dst + k) = t'.bufByte (dst + k)))

/-- The bits of a register that a host write stores (R27 to R38); `none` where a write does something
else or nothing. -/
def writeMask : Reg → Option Word
  | .mod => some 0x000001FF
  | .dim => some 0x0000001F
  | .opa | .opb => some 0xFFFFFFFF
  | .src | .dst | .bufAddr => some 0x0000FFFF
  | .len => some 0x0001FFFF
  | .vin _ | .mat _ _ _ => some 0x0000FFFF
  | .id | .ctrl | .status | .cmd | .res | .outlen | .bufData | .vout _ => none

/-- An offset of the window that holds no register (R39). -/
def reservedOffset (o : BitVec 12) : Prop :=
  let n := o.toNat
  (0x03C ≤ n ∧ n ≤ 0x0FC) ∨ (0x140 ≤ n ∧ n ≤ 0x1FC) ∨ (0x240 ≤ n ∧ n ≤ 0x3FC) ∨
    (0xC00 ≤ n ∧ n ≤ 0xFFC)

/-- A word that no command has: one of the cases of R84. -/
def illegalWord (w : Word) : Prop :=
  0x0B ≤ (w.extractLsb' 0 8).toNat ∨ w.extractLsb' 10 22 ≠ 0 ∨
    (w.getLsbD 8 = true ∧ (w.extractLsb' 0 8).toNat ∈ [0x00, 0x01, 0x02, 0x07, 0x08]) ∨
    (w.getLsbD 9 = true ∧
      (w.extractLsb' 0 8).toNat ∈ [0x00, 0x01, 0x02, 0x03, 0x06, 0x07, 0x08, 0x09, 0x0A])

/-- The state after a soft reset (R48, R202): the reset values, with BUF kept; the model's own fields stay. -/
def State.afterSoftReset (s : State) : State :=
  { State.reset with
    buf := s.buf
    resetInput := s.resetInput
    bufEpoch := s.bufEpoch
    agenda := s.agenda
    reads := s.reads }

/-- The step from this state accepts a command word (R26), the reset input being released. -/
def acceptsNow (s : State) : Prop :=
  s.resetInput = false ∧ s.busy = false ∧ ∃ v rest, s.agenda = .write .word 0x00C v :: rest

/-- The step between these states completes a command or an illegal word (R44). -/
def completesNow (s t : State) : Prop :=
  s.resetInput = false ∧ s.engine = .busy 0 ∧
    (s.agenda = [] ∨ ∃ rest, s.agenda = .engine :: rest) ∧ t.engine = .idle ∧ t.done = true

/-- In the step from this state the reset input is asserted, or it was asserted before it (R200). -/
def hardResetNow (s : State) : Prop :=
  s.resetInput = true ∨ ∃ rest, s.agenda = .resetInput true :: rest

/-- The step from this state is a hard or a soft reset (R200, R202). -/
def resetNow (s : State) : Prop :=
  hardResetNow s ∨ ∃ v rest, s.agenda = .write .word 0x004 v :: rest ∧ v.getLsbD 1 = true

/-- The step from this state writes a 1 to a bit of STATUS (R25). -/
def clearsNow (s : State) (bit : Nat) : Prop :=
  ∃ v rest, s.agenda = .write .word 0x008 v :: rest ∧ v.getLsbD bit = true

end Sys2Proof.Machine

/-! ### Encoding -/

/-- R80, R83, R84, R86: each command has exactly one word, each word at most one command, and the bytes of
a command's word in lane order (R62; log 10) decode to it and leave the bytes after it. -/
def Obligations.DecodeAgreesWithEncode : Prop :=
  (∀ (w : Word) (i : Instr), decode w = .ok i ↔ w = encode i) ∧
    ∀ (i : Instr) (rest : List Byte), i.wf = true →
      decodeBytes (wordBytes (encode i) ++ rest) = .ok (i, rest)

/-- R83: a word decodes to a command exactly if it matches a row, that row bears the command's mnemonic,
and no two rows match the same word. -/
def Obligations.DecodeFollowsMatchAndMask : Prop :=
  (∀ (w : Word) (i : Instr), decode w = .ok i →
      ∃ r ∈ opcodeTable, w &&& r.mask = r.pattern ∧ r.mnemonic = mnemonicOf i) ∧
    (∀ (w : Word), ∀ r ∈ opcodeTable, w &&& r.mask = r.pattern →
      ∃ i, decode w = .ok i ∧ mnemonicOf i = r.mnemonic) ∧
    ∀ (w : Word), ∀ r ∈ opcodeTable, ∀ r' ∈ opcodeTable,
      w &&& r.mask = r.pattern → w &&& r'.mask = r'.pattern → r = r'

/-- The example words of R86 decode to the commands they stand for (a sanity statement). -/
def Obligations.ExampleWordsDecode : Prop :=
  decode 0x00000000 = .ok .nop ∧ decode 0x00000001 = .ok .gcd ∧ decode 0x00000002 = .ok .modinv ∧
    decode 0x00000103 = .ok (.det .m1) ∧ decode 0x00000204 = .ok (.adj .m1 .m0) ∧
    decode 0x00000205 = .ok (.inv .m1 .m0) ∧ decode 0x00000105 = .ok (.inv .m0 .m1) ∧
    decode 0x00000305 = .ok (.inv .m1 .m1) ∧ decode 0x00000106 = .ok (.matvec .m1) ∧
    decode 0x00000007 = .ok .pad ∧ decode 0x00000008 = .ok .unpad ∧
    decode 0x00000009 = .ok (.enc .m0) ∧ decode 0x0000010A = .ok (.dec .m1)

/-- R84: a word that matches no row is illegal, and the illegal words are exactly those of its four cases;
such a word is accepted like any other and completes with ILLEGAL_COMMAND, and nothing else is read or
written. -/
def Obligations.IllegalWordsCompleteWithIllegalCommand : Prop :=
  (∀ w : Word, illegalWord w ↔ ∀ r ∈ opcodeTable, w &&& r.mask ≠ r.pattern) ∧
    (∀ w : Word, illegalWord w ↔ ¬∃ i, decode w = .ok i) ∧
    (∀ (w : Word) (s : State), illegalWord w → s.busy = false →
      hostWrite .word 0x00C w s = accept w s) ∧
    ∀ s : State, s.engine = .busy 0 → illegalWord s.cmd → engineStep s = .next (s.failedWith 5)

/-! ### Steps -/

/-- A step performs the next event of the agenda, or an engine step if there is none, while the reset input
is released (log 1, log 2: the form of the agenda is the model's). -/
def Obligations.StepPerformsNextEvent : Prop :=
  ∀ (s : State) (rest : List Event), s.resetInput = false →
    (s.agenda = [] → step s = engineStep s) ∧
    (s.agenda = .engine :: rest → step s = engineStep { s with agenda := rest }) ∧
    (∀ w o v, s.agenda = .write w o v :: rest →
      step s = .next (hostWrite w o v { s with agenda := rest })) ∧
    (∀ w o, s.agenda = .read w o :: rest → step s = .next (hostRead w o { s with agenda := rest })) ∧
    (s.agenda = .wait :: rest → s.done = true → step s = .next { s with agenda := rest }) ∧
    (s.agenda = .wait :: rest → s.done = false →
      step s = .next { s with agenda := .engine :: .wait :: rest }) ∧
    (s.agenda = .resetInput true :: rest →
      step s = .next { hardReset s with resetInput := true, agenda := rest }) ∧
    (s.agenda = .resetInput false :: rest → step s = .next { s with agenda := rest })

/-- R44: in the engine's last step of a command, a step is the meaning of the command whose word is in
CMD; the same for a word that `withFetchWord` places (log 8). -/
def Obligations.StepRunsDecodedCommand : Prop :=
  ∀ (s : State) (i : Instr) (rest : List Event), i.wf = true →
    (s.resetInput = false → s.engine = .busy 0 → decode s.cmd = .ok i →
      (s.agenda = [] → step s = exec i s) ∧
      (s.agenda = .engine :: rest → step s = exec i { s with agenda := rest })) ∧
    ∀ nbits w : Nat, decodeTableWord nbits w = some i → step (s.withFetchWord nbits w) =
      exec i { s with
        cmd := BitVec.ofNat 32 (w % 2 ^ nbits), engine := .busy 0, done := false, err := false
        errcode := 0, resetInput := false }

/-- R26: a write to CMD while IDLE is accepted, whatever the word, and starts the engine; while BUSY it is
dropped and sets OVR; a read returns the last accepted word, 0 after reset; a word of no command
completes with ILLEGAL_COMMAND. That the engine then has LAT - 1 steps before the completing one (R44, R220)
rests on the free value of log 3. -/
def Obligations.CommandWriteIsAccepted : Prop :=
  (∀ (w : Word) (s : State), s.busy = false →
    hostWrite .word 0x00C w s =
      { s with
        cmd := w, engine := .busy (Config.lat w s - 1), done := false, err := false, errcode := 0 }) ∧
    (∀ (w : Word) (s : State), s.busy = true → hostWrite .word 0x00C w s = { s with ovr := true }) ∧
    (∀ s : State, hostReadValue .word 0x00C s = s.cmd) ∧ hostReadValue .word 0x00C State.reset = 0 ∧
    ∀ s : State, s.engine = .busy 0 → (¬∃ i, decode s.cmd = .ok i) →
      engineStep s = .next (s.failedWith 5)

/-- R44, R220: an accepted command stays BUSY for fewer than LAT engine steps and completes at step LAT.
LAT is a free value (log 3): the statement holds for every value of it. -/
def Obligations.CommandCompletesAfterLatency : Prop :=
  ∀ (w : Word) (s : State) (rest : List Event), s.resetInput = false →
    let a := { accept w s with agenda := List.replicate (Config.lat w s) .engine ++ rest }
    1 ≤ Config.lat w s ∧
    (∀ k < Config.lat w s, ∃ t : State, runSteps k a = .next t ∧ t.busy = true) ∧
      runSteps (Config.lat w s) a = execWord w { accept w s with engine := .busy 0, agenda := rest }

/-- R87: a WAIT ends, with DONE = 1 and the engine IDLE. That the engine takes one step between two polls
is the model's choice (log 6). -/
def Obligations.WaitEndsAtCompletion : Prop :=
  ∀ (s : State) (k : Nat) (rest : List Event),
    s.resetInput = false → s.engine = .busy k → s.done = false → s.agenda = .wait :: rest →
      ∃ t : State, runSteps (2 * k + 3) s = .next t ∧ t.agenda = rest ∧ t.done = true ∧ t.engine = .idle

/-- R170: an error is no stop: every command, in every state, completes, goes back to IDLE with DONE = 1,
and has ERR set exactly with an error code (that a success leaves ERR as it was is log 11). -/
def Obligations.EveryCommandGoesBackToIdle : Prop :=
  ∀ (i : Instr) (s : State), ∃ t, exec i s = .next t ∧ t.engine = .idle ∧ t.done = true ∧
    ((t.errcode = 0 ∧ t.err = s.err) ∨ (t.errcode ≠ 0 ∧ t.err = true))

/-- R170, R177: no run of the machine stops, from any state, under any order of host accesses, engine
steps and resets. -/
def Obligations.EveryRunIsSafe : Prop := ∀ s : State, SafeFrom s

/-- Every step keeps the invariant: the canonical form of BUF (log 5), STATUS while BUSY (R43), the error
codes (R24, R172), the entries of VOUT (R37), the length of an output (R33), the registers while the reset
input is asserted (R200; log 7). -/
def Obligations.StepKeepsInvariant : Prop :=
  ∀ s t : State, s.Inv → step s = .next t → t.Inv

/-- The invariant holds after reset. -/
def Obligations.ResetMeetsInvariant : Prop := State.reset.Inv

/-! ### The scalar unit -/

/-- R100: NOP leaves everything but STATUS unchanged, and so every byte of BUF; ERR stays 0, and STATUS
then reads 0x00000002 if OVR was 0. -/
def Obligations.NopOnlyCompletes : Prop :=
  encode .nop = 0x00000000 ∧ ∀ s : State, exec .nop s = .next s.succeeded ∧
    (s.err = false → s.ovr = false → hostReadValue .word 0x008 s.succeeded = 0x00000002)

/-- R102: GCD leaves the greatest common divisor of OPA and OPB in RES (gcd(0, 0) = 0) and changes
nothing else but STATUS. -/
def Obligations.GcdLeavesGreatestCommonDivisor : Prop :=
  encode .gcd = 0x00000001 ∧ ∀ s : State, ∃ g : Word,
    exec .gcd s = .next { s with res := g }.succeeded ∧
      (∀ d : Nat, d ∣ g.toNat ↔ d ∣ s.opa.toNat ∧ d ∣ s.opb.toNat)

/-- R104: MODINV checks OPB, then coprimality; otherwise RES becomes the unique inverse and nothing else
changes but STATUS. -/
def Obligations.ModinvLeavesUniqueInverse : Prop :=
  encode .modinv = 0x00000002 ∧ ∀ s : State,
    let a := s.opa.toNat
    let m := s.opb.toNat
    (m < 2 → exec .modinv s = .next (s.failedWith 7)) ∧
    (2 ≤ m → Nat.gcd (a % m) m ≠ 1 → exec .modinv s = .next (s.failedWith 1)) ∧
    (2 ≤ m → Nat.gcd (a % m) m = 1 → ∃ x : Word,
      exec .modinv s = .next { s with res := x }.succeeded ∧ x.toNat < m ∧ a * x.toNat % m = 1 ∧
        ∀ y < m, a * y % m = 1 → y = x.toNat)

/-! ### The matrix unit -/

/-- R121: DET leaves det(A) mod M in RES, also for a singular matrix; its errors in order. -/
def Obligations.DetLeavesDeterminant : Prop :=
  ∀ (s : State) (m : MatSel),
    encode (.det m) = 0x03 + bitS m ∧
    (¬ConfigOk s → exec (.det m) s = .next (s.failedWith 6)) ∧
    (ConfigOk s → ¬MatrixOk s m → exec (.det m) s = .next (s.failedWith 7)) ∧
    (ConfigOk s → MatrixOk s m →
      exec (.det m) s = .next { s with res := BitVec.ofNat 32 (detMod s m) }.succeeded)

/-- R124, R128: ADJ leaves adj(A) mod M in the top-left N x N of MAT[d], computed from A as it was also
when d = m, and keeps every other entry and RES; its errors in order. -/
def Obligations.AdjLeavesAdjugate : Prop :=
  ∀ (s : State) (d m : MatSel),
    encode (.adj d m) = 0x04 + bitD d + bitS m ∧
    (¬ConfigOk s → exec (.adj d m) s = .next (s.failedWith 6)) ∧
    (ConfigOk s → ¬MatrixOk s m → exec (.adj d m) s = .next (s.failedWith 7)) ∧
    (ConfigOk s → MatrixOk s m → ∃ v : MatReg,
      exec (.adj d m) s = .next (s.setMat d v).succeeded ∧
        ∀ i j : Fin 16, v[i][j] =
          if i.val < s.N ∧ j.val < s.N then
            BitVec.ofNat 16 (adjugateEntry s m i.val j.val % (s.M : ℤ)).toNat
          else (s.mat d)[i][j])

/-- R127, R128: INV leaves (di adj(A)) mod M in the top-left N x N of MAT[d], with di the inverse of the
determinant, and det(A) mod M in RES, and keeps every other entry; its errors in order. -/
def Obligations.InvLeavesScaledAdjugate : Prop :=
  ∀ (s : State) (d m : MatSel),
    encode (.inv d m) = 0x05 + bitD d + bitS m ∧
    (¬ConfigOk s → exec (.inv d m) s = .next (s.failedWith 6)) ∧
    (ConfigOk s → ¬MatrixOk s m → exec (.inv d m) s = .next (s.failedWith 7)) ∧
    (ConfigOk s → MatrixOk s m → Nat.gcd (detMod s m) s.M ≠ 1 →
      exec (.inv d m) s = .next (s.failedWith 1)) ∧
    (ConfigOk s → MatrixOk s m → Nat.gcd (detMod s m) s.M = 1 → ∃ (di : Nat) (v : MatReg),
      IsDetInverse s m di ∧
      exec (.inv d m) s =
        .next { s.setMat d v with res := BitVec.ofNat 32 (detMod s m) }.succeeded ∧
        ∀ i j : Fin 16, v[i][j] =
          if i.val < s.N ∧ j.val < s.N then BitVec.ofNat 16 (inverseEntry s m di i.val j.val)
          else (s.mat d)[i][j])

/-- R126: the result B of a successful INV satisfies (A B) mod M = I, and it is the only matrix of residues
that does. -/
def Obligations.InvGivesModularInverse : Prop :=
  ∀ (s t : State) (d m : MatSel), exec (.inv d m) s = .next t → t.errcode = 0 →
    (∀ i < s.N, ∀ k < s.N,
      (∑ j ∈ Finset.range s.N, s.entry m i j * t.entry d j k) % s.M = if i = k then 1 else 0) ∧
    ∀ B : Nat → Nat → Nat, (∀ i < s.N, ∀ k < s.N, B i k < s.M) →
      (∀ i < s.N, ∀ k < s.N,
        (∑ j ∈ Finset.range s.N, s.entry m i j * B j k) % s.M = if i = k then 1 else 0) →
      ∀ i < s.N, ∀ k < s.N, B i k = t.entry d i k

/-- R127: INV applied to its own result succeeds and gives back the key, also when both stand in the same
matrix register. -/
def Obligations.InvTwiceGivesBackTheKey : Prop :=
  ∀ (s t : State) (d m : MatSel), exec (.inv d m) s = .next t → t.errcode = 0 →
    ∃ u : State, exec (.inv m d) t = .next u ∧ u.errcode = 0 ∧
      ∀ i < s.N, ∀ j < s.N, u.entry m i j = s.entry m i j

/-- R130: MATVEC leaves A VIN mod M in VOUT[0..N-1] and keeps the other entries and RES; its errors in
order. The key need not be invertible. -/
def Obligations.MatvecLeavesProduct : Prop :=
  ∀ (s : State) (m : MatSel),
    encode (.matvec m) = 0x06 + bitS m ∧
    (¬ConfigOk s → exec (.matvec m) s = .next (s.failedWith 6)) ∧
    (ConfigOk s → (¬MatrixOk s m ∨ ¬VectorOk s) → exec (.matvec m) s = .next (s.failedWith 7)) ∧
    (ConfigOk s → MatrixOk s m → VectorOk s → ∃ v : Vector Entry 16,
      exec (.matvec m) s = .next { s with vout := v }.succeeded ∧
        ∀ i : Fin 16, v[i] =
          if i.val < s.N then
            BitVec.ofNat 16 ((∑ j ∈ Finset.range s.N, s.entry m i.val j * s.vinAt j) % s.M)
          else s.vout[i])

/-- R131: INV into the other matrix register, MATVEC with the key, and MATVEC with the inverse on the
result give back VIN. -/
def Obligations.MatvecWithInverseUndoesMatvec : Prop :=
  ∀ (s : State) (d m : MatSel), d ≠ m → ConfigOk s → MatrixOk s m → VectorOk s →
    Nat.gcd (detMod s m) s.M = 1 →
      ∃ t t1 t2 : State, exec (.inv d m) s = .next t ∧ exec (.matvec m) t = .next t1 ∧
        exec (.matvec d) { t1 with vin := t1.vout } = .next t2 ∧
        t.errcode = 0 ∧ t1.errcode = 0 ∧ t2.errcode = 0 ∧
        ∀ i : Fin 16, i.val < s.N → t2.vout[i] = s.vin[i]

/-! ### The block codec -/

/-- R144: PAD copies the input and p bytes of value p to DST; it checks DIM and the regions, in this
order, and does not read MOD. -/
def Obligations.PadAppendsPadding : Prop :=
  ∀ s : State,
    let n := s.len.toNat + padding s
    encode .pad = 0x00000007 ∧
    (¬(1 ≤ s.N ∧ s.N ≤ 16) → exec .pad s = .next (s.failedWith 6)) ∧
    (1 ≤ s.N → s.N ≤ 16 → ¬RegionsOk s n → exec .pad s = .next (s.failedWith 8)) ∧
    (1 ≤ s.N → s.N ≤ 16 → RegionsOk s n → ∃ t,
      exec .pad s = .next t ∧ s.codecDone t n (padding s) (paddedByte s (padding s)))

/-- R146: UNPAD copies the input without its last p bytes to DST, with p the last byte (0 for no input);
its errors in order. -/
def Obligations.UnpadStripsPadding : Prop :=
  ∀ s : State,
    let n := s.len.toNat
    let p := lastInput s
    encode .unpad = 0x00000008 ∧
    (¬RegionsOk s n → exec .unpad s = .next (s.failedWith 8)) ∧
    (RegionsOk s n → n < p → exec .unpad s = .next (s.failedWith 4)) ∧
    (RegionsOk s n → p ≤ n → ∃ t, exec .unpad s = .next t ∧
      s.codecDone t (n - p) p fun k => (s.bufByte (s.src.toNat + k)).toNat)

/-- R149, R140, R155: ENC writes the transform of every Block of the padded input, at the Block's own
positions; the output length is a multiple of N; its errors in order; the key is not tested (R150). -/
def Obligations.EncTransformsEveryBlock : Prop :=
  ∀ (s : State) (m : MatSel),
    let n := s.len.toNat + padding s
    let symbolsOk := ∀ k < n, paddedByte s (padding s) k < s.M
    encode (.enc m) = 0x09 + bitS m ∧
    (¬ConfigOk s → exec (.enc m) s = .next (s.failedWith 6)) ∧
    (ConfigOk s → ¬RegionsOk s n → exec (.enc m) s = .next (s.failedWith 8)) ∧
    (ConfigOk s → RegionsOk s n → (¬MatrixOk s m ∨ ¬symbolsOk) →
      exec (.enc m) s = .next (s.failedWith 7)) ∧
    (ConfigOk s → RegionsOk s n → MatrixOk s m → symbolsOk → n % s.N = 0 ∧ ∃ t,
      exec (.enc m) s = .next t ∧ s.codecDone t n (padding s) (cipherByte s m (padding s)))

/-- R152, R153: DEC writes the transform of every Block of the input by the inverse key, less its last p
bytes; its errors in order. The inverse is written to no register. -/
def Obligations.DecTransformsAndUnpads : Prop :=
  ∀ (s : State) (m : MatSel),
    let n := s.len.toNat
    let symbolsOk := ∀ k < n, (s.bufByte (s.src.toNat + k)).toNat < s.M
    encode (.dec m) = 0x0A + bitS m ∧
    (¬ConfigOk s → exec (.dec m) s = .next (s.failedWith 6)) ∧
    (ConfigOk s → ¬RegionsOk s n → exec (.dec m) s = .next (s.failedWith 8)) ∧
    (ConfigOk s → RegionsOk s n → (¬MatrixOk s m ∨ ¬symbolsOk) →
      exec (.dec m) s = .next (s.failedWith 7)) ∧
    (ConfigOk s → RegionsOk s n → MatrixOk s m → symbolsOk → Nat.gcd (detMod s m) s.M ≠ 1 →
      exec (.dec m) s = .next (s.failedWith 1)) ∧
    (ConfigOk s → RegionsOk s n → MatrixOk s m → symbolsOk → Nat.gcd (detMod s m) s.M = 1 →
      n % s.N ≠ 0 → exec (.dec m) s = .next (s.failedWith 3)) ∧
    (ConfigOk s → RegionsOk s n → MatrixOk s m → symbolsOk → Nat.gcd (detMod s m) s.M = 1 →
      n % s.N = 0 → ∃ di, IsDetInverse s m di ∧
        (n < lastPlain s m di → exec (.dec m) s = .next (s.failedWith 4)) ∧
        (lastPlain s m di ≤ n → ∃ t, exec (.dec m) s = .next t ∧
          s.codecDone t (n - lastPlain s m di) (lastPlain s m di) (plainByte s m di)))

/-- R154: DEC of the output of ENC with the same invertible key gives back the data, less what the last
byte of aligned data says; CORRUPT_PADDING if that is more than there is. The host moves SRC, DST and
LEN to the ciphertext and a free region in between. -/
def Obligations.DecUndoesEnc : Prop :=
  ∀ (s t : State) (m : MatSel) (dst2 : BitVec 16),
    Nat.gcd (detMod s m) s.M = 1 → exec (.enc m) s = .next t → t.errcode = 0 →
    let k := s.len.toNat
    let u := { t with src := t.dst, dst := dst2, len := t.outlen }
    let q := lastInput s
    RegionsOk u u.len.toNat →
      (k % s.N ≠ 0 ∨ k = 0 ∨ q = 0 → ∃ v : State, exec (.dec m) u = .next v ∧ v.errcode = 0 ∧
        v.outlen.toNat = k ∧
        ∀ x < k, v.bufByte (dst2.toNat + x) = s.bufByte (s.src.toNat + x)) ∧
      (k % s.N = 0 → 0 < k → 0 < q → q ≤ k → ∃ v : State, exec (.dec m) u = .next v ∧ v.errcode = 0 ∧
        v.outlen.toNat = k - q ∧
        ∀ x < k - q, v.bufByte (dst2.toNat + x) = s.bufByte (s.src.toNat + x)) ∧
      (k % s.N = 0 → k < q → exec (.dec m) u = .next (u.failedWith 4))

/-! ### What every command keeps -/

/-- R176: a command that raises an error, or a word that is no command, changes only STATUS. -/
def Obligations.ErrorChangesOnlyStatus : Prop :=
  (∀ (i : Instr) (s t : State), exec i s = .next t → t.errcode ≠ 0 → t = s.failedWith t.errcode) ∧
    ∀ s t : State, s.engine = .busy 0 → engineStep s = .next t → t.errcode ≠ 0 →
      t = s.failedWith t.errcode

/-- R47: the registers and matrix entries a command does not write are unchanged, on success and on
error. -/
def Obligations.CommandRegisterFrame : Prop :=
  ∀ (i : Instr) (s t : State), exec i s = .next t →
    (t.ie = s.ie ∧ t.ovr = s.ovr ∧ t.cmd = s.cmd ∧ t.modulus = s.modulus ∧ t.dim = s.dim ∧
      t.opa = s.opa ∧ t.opb = s.opb ∧ t.src = s.src ∧ t.dst = s.dst ∧ t.len = s.len ∧
      t.bufAddr = s.bufAddr ∧ t.vin = s.vin ∧ t.resetInput = s.resetInput ∧ t.bufEpoch = s.bufEpoch ∧
      t.agenda = s.agenda ∧ t.reads = s.reads) ∧
    (writesRes i = false → t.res = s.res) ∧
    (writesBuf i = false → t.outlen = s.outlen ∧ t.buf = s.buf) ∧
    (writesVout i = false → t.vout = s.vout) ∧
    (∀ k : Fin 16, s.N ≤ k.val → t.vout[k] = s.vout[k]) ∧
    (∀ d, writesMat i ≠ some d → t.mat d = s.mat d) ∧
    ∀ (d : MatSel) (a b : Fin 16), s.N ≤ a.val ∨ s.N ≤ b.val → (t.mat d)[a][b] = (s.mat d)[a][b]

/-- R47, R60: every byte of BUF is unchanged by a command, but for BUF[DST .. DST+OUTLEN-1] after a
success of PAD, UNPAD, ENC or DEC. -/
def Obligations.CommandMemoryFrame : Prop :=
  ∀ (i : Instr) (s t : State) (x : Nat), exec i s = .next t →
    (writesBuf i = false ∨ t.errcode ≠ 0 ∨ x < s.dst.toNat ∨ s.dst.toNat + t.outlen.toNat ≤ x) →
      t.bufByte x = s.bufByte x

/-- R82, R20: the outcome of a command and all it writes depend only on the operands it reads; entries
outside the top-left N x N, entries VIN[j] with j ≥ N and bytes outside the input region do not
matter. -/
def Obligations.CommandDependsOnlyOnItsOperands : Prop :=
  ∀ (i : Instr) (s s' t t' : State), sameOperands i s s' → exec i s = .next t → exec i s' = .next t' →
    sameResults i s.N s.dst.toNat t t'

/-- R41, R42, R44: while the engine stays BUSY, no step changes the command word, an operand, a result
register or a byte of BUF. -/
def Obligations.NothingChangesUnderARunningCommand : Prop :=
  ∀ s t : State, step s = .next t → s.busy = true → t.busy = true →
    t.cmd = s.cmd ∧ t.modulus = s.modulus ∧ t.dim = s.dim ∧ t.opa = s.opa ∧ t.opb = s.opb ∧
      t.res = s.res ∧ t.src = s.src ∧ t.dst = s.dst ∧ t.len = s.len ∧ t.outlen = s.outlen ∧
      t.vin = s.vin ∧ t.vout = s.vout ∧ t.mat0 = s.mat0 ∧ t.mat1 = s.mat1 ∧
      ∀ x, t.bufByte x = s.bufByte x

/-- R60: in one step a byte of BUF changes only by a hard reset (while the reset input is asserted, R200),
by a write to BUF_DATA at BUF_ADDR while IDLE, or by the successful completion of PAD, UNPAD, ENC or DEC
inside the output region. -/
def Obligations.BufChangesOnlyByPortCodecOrReset : Prop :=
  ∀ (s t : State) (x : Nat), step s = .next t → t.bufByte x ≠ s.bufByte x →
    hardResetNow s ∨
    (∃ v rest, s.agenda = .write .word 0x038 v :: rest ∧ s.busy = false ∧ x = s.bufAddr.toNat) ∨
    (completesNow s t ∧ t.errcode = 0 ∧ s.dst.toNat ≤ x ∧ x < s.dst.toNat + t.outlen.toNat ∧
      ∃ i, decode s.cmd = .ok i ∧ writesBuf i = true)

/-- R46: which event writes each flag. In one step BUSY rises only by acceptance and falls only by a
completion or a reset; DONE and ERR rise only at a completion, ERR only with an error code, and fall only by
acceptance, a write of 1 or a reset; OVR rises only by a dropped host write and falls only by a write of 1
or a reset; ERRCODE changes only at acceptance, at a completion or by a reset. -/
def Obligations.FlagsRiseOnlyByTheirEvents : Prop :=
  ∀ s t : State, step s = .next t →
    (s.busy = false → t.busy = true → acceptsNow s) ∧
    (s.busy = true → t.busy = false → completesNow s t ∨ resetNow s) ∧
    (s.done = false → t.done = true → completesNow s t) ∧
    (s.done = true → t.done = false → acceptsNow s ∨ clearsNow s 1 ∨ resetNow s) ∧
    (s.err = false → t.err = true → completesNow s t ∧ t.errcode ≠ 0) ∧
    (s.err = true → t.err = false → acceptsNow s ∨ clearsNow s 2 ∨ resetNow s) ∧
    (s.ovr = false → t.ovr = true → s.busy = true ∧
      ∃ o v rest, s.agenda = .write .word o v :: rest ∧ o ≠ 0x004 ∧ o ≠ 0x008) ∧
    (s.ovr = true → t.ovr = false → clearsNow s 3 ∨ resetNow s) ∧
    (t.errcode ≠ s.errcode → acceptsNow s ∨ completesNow s t ∨ resetNow s)

/-! ### The host interface -/

/-- R24: the fields of STATUS as the host reads them. -/
def Obligations.StatusReadsItsFields : Prop :=
  ∀ s : State,
    let v := hostReadValue .word 0x008 s
    v.getLsbD 0 = s.busy ∧ v.getLsbD 1 = s.done ∧ v.getLsbD 2 = s.err ∧ v.getLsbD 3 = s.ovr ∧
      v.extractLsb' 4 4 = 0 ∧ v.extractLsb' 8 4 = s.errcode ∧ v.extractLsb' 12 20 = 0

/-- R25: a write to STATUS clears DONE, ERR and OVR where the value has a 1 and changes nothing else, also
while BUSY. -/
def Obligations.StatusWriteClearsOnes : Prop :=
  ∀ (s : State) (w : Word), hostWrite .word 0x008 w s =
    { s with
      done := if w.getLsbD 1 then false else s.done
      err := if w.getLsbD 2 then false else s.err
      ovr := if w.getLsbD 3 then false else s.ovr }

/-- R23: CTRL reads IE in bit 0 and 0 elsewhere, and 0 after reset; IE enables IRQ; a write with SRST = 0
sets IE, one with SRST = 1 resets and discards IE; both also while BUSY. -/
def Obligations.CtrlHoldsInterruptEnable : Prop :=
  hostReadValue .word 0x004 State.reset = 0 ∧ ∀ (s : State) (w : Word),
    hostReadValue .word 0x004 s = (if s.ie then 1 else 0) ∧ s.irq = (s.ie && s.done) ∧
    (w.getLsbD 1 = false → hostWrite .word 0x004 w s = { s with ie := w.getLsbD 0 }) ∧
    (w.getLsbD 1 = true → hostWrite .word 0x004 w s = s.afterSoftReset ∧
      hostReadValue .word 0x004 (hostWrite .word 0x004 w s) = 0)

/-- R202: a write of 1 to SRST, in IDLE and in BUSY, abandons a running command, puts every register at
its reset value and keeps every byte of BUF. -/
def Obligations.SoftResetKeepsOnlyBuf : Prop :=
  ∀ (s : State) (w : Word), w.getLsbD 1 = true →
    let t := hostWrite .word 0x004 w s
    t.engine = .idle ∧ t.irq = false ∧ (∀ x, t.bufByte x = s.bufByte x) ∧
      ∀ r : Reg, r ≠ .bufData → readReg t r = readReg State.reset r

/-- R200: when the reset input is asserted, in IDLE and in BUSY, in every step while it stays asserted,
whatever the host or the engine does, and when it is released, every register is at its reset value, a running
command is abandoned and the engine is IDLE; nothing is said of BUF. The input stays asserted until its
release, and the host reads the reset values meanwhile (that a read is performed then is DEDUCED, log 7; the
form of the agenda is log 1). -/
def Obligations.HardResetSetsEveryRegister : Prop :=
  ∀ s : State, hardResetNow s → ∃ t : State,
    step s = .next t ∧ t.engine = .idle ∧ t.irq = false ∧
      (∀ r : Reg, r ≠ .bufData → readReg t r = readReg State.reset r) ∧
      (∀ e rest, s.agenda = e :: rest → e ≠ .wait → t.agenda = rest) ∧
      (∀ level rest, s.agenda = .resetInput level :: rest → t.resetInput = level) ∧
      ((∀ level rest, s.agenda ≠ .resetInput level :: rest) → t.resetInput = true) ∧
      ∀ width o rest, s.agenda = .read width o :: rest → o ≠ 0x038 →
        t.reads = s.reads ++ [hostReadValue width o State.reset]

/-- R48: the reset values of the registers as the host reads them. -/
def Obligations.ResetValuesOfRegisters : Prop :=
  let v := fun o => hostReadValue .word o State.reset
  State.reset.engine = .idle ∧ State.reset.irq = false ∧
  v 0x000 = 0x48434501 ∧ v 0x004 = 0 ∧ v 0x008 = 0 ∧ v 0x00C = 0 ∧ v 0x010 = 256 ∧ v 0x014 = 3 ∧
    v 0x018 = 0 ∧ v 0x01C = 0 ∧ v 0x020 = 0 ∧ v 0x024 = 0 ∧ v 0x028 = 0 ∧ v 0x02C = 0 ∧ v 0x030 = 0 ∧
    v 0x034 = 0 ∧ ∀ k : Fin 16, readReg State.reset (.vin k) = 0 ∧ readReg State.reset (.vout k) = 0 ∧
      ∀ (m : MatSel) (j : Fin 16), readReg State.reset (.mat m k j) = 0

/-- R42: while BUSY a write to any offset other than CTRL and STATUS is dropped and sets OVR; writes to
CTRL and STATUS are performed as when IDLE. -/
def Obligations.BusyWriteIsDropped : Prop :=
  ∀ (s : State) (o : BitVec 12) (w : Word), s.busy = true → o.toNat % 4 = 0 →
    (o ≠ 0x004 → o ≠ 0x008 → hostWrite .word o w s = { s with ovr := true }) ∧
    (o = 0x004 → hostWrite .word o w s =
      if w.getLsbD 1 then s.afterSoftReset else { s with ie := w.getLsbD 0 }) ∧
    (o = 0x008 → hostWrite .word o w s =
      { s with
        done := if w.getLsbD 1 then false else s.done
        err := if w.getLsbD 2 then false else s.err
        ovr := if w.getLsbD 3 then false else s.ovr })

/-- R22 to R38, R43: what a host read returns, in every state: the field the register holds,
zero-extended, at its offset of the map. -/
def Obligations.ReadsReturnTheHeldFields : Prop :=
  ∀ s : State,
    let v := fun o => hostReadValue .word o s
    v 0x000 = 0x48434501 ∧ v 0x004 = (if s.ie then 1 else 0) ∧ v 0x008 = statusWord s ∧
    v 0x00C = s.cmd ∧ v 0x010 = s.modulus.setWidth 32 ∧ v 0x014 = s.dim.setWidth 32 ∧
    v 0x018 = s.opa ∧ v 0x01C = s.opb ∧ v 0x020 = s.res ∧ v 0x024 = s.src.setWidth 32 ∧
    v 0x028 = s.dst.setWidth 32 ∧ v 0x02C = s.len.setWidth 32 ∧ v 0x030 = s.outlen.setWidth 32 ∧
    v 0x034 = s.bufAddr.setWidth 32 ∧ v 0x038 = (s.bufByte s.bufAddr.toNat).setWidth 32 ∧
    (∀ k : Fin 16, v (BitVec.ofNat 12 (0x100 + 4 * k.val)) = s.vin[k].setWidth 32 ∧
      v (BitVec.ofNat 12 (0x200 + 4 * k.val)) = s.vout[k].setWidth 32) ∧
    ∀ i j : Fin 16,
      v (BitVec.ofNat 12 (0x400 + 4 * (16 * i.val + j.val))) = s.mat0[i][j].setWidth 32 ∧
      v (BitVec.ofNat 12 (0x800 + 4 * (16 * i.val + j.val))) = s.mat1[i][j].setWidth 32

/-- R43, R65: in every state a 32-bit read changes only BUF_ADDR, and that only at BUF_DATA (and the host's
record of values, log 6); while BUSY, STATUS reads BUSY = 1 and DONE, ERR and ERRCODE 0 (in every state that
meets the invariant); and after any number of engine steps of an accepted command before its last (LAT is a
free value, log 3; the agenda is log 1) every register but STATUS and CMD reads as before the command. -/
def Obligations.BusyReadsShowTheOldState : Prop :=
  (∀ (s : State) (o : BitVec 12), hostRead .word o s =
    { s with
      bufAddr := if o = 0x038 then s.bufAddr + 1 else s.bufAddr
      reads := s.reads ++ [hostReadValue .word o s] }) ∧
  (∀ s : State, s.Inv → s.busy = true →
    hostReadValue .word 0x008 s = (if s.ovr then 0x9 else 0x1)) ∧
  ∀ (w : Word) (s : State) (rest : List Event) (k : Nat), s.resetInput = false →
    k < Config.lat w s → ∃ t : State,
      runSteps k { accept w s with agenda := List.replicate k .engine ++ rest } = .next t ∧
        t.busy = true ∧ t.agenda = rest ∧ hostReadValue .word 0x00C t = w ∧
        ∀ r : Reg, r ≠ .status → r ≠ .cmd →
          hostReadValue .word (regOffset r) t = hostReadValue .word (regOffset r) s

/-- R35: the BUF_DATA port. That the host keeps the value it reads in `reads` (R87) is the model's choice
(log 6). -/
def Obligations.BufDataPortReadsAndWrites : Prop :=
  ∀ (s : State) (w : Word),
    hostRead .word 0x038 s =
      { s with
        bufAddr := s.bufAddr + 1
        reads := s.reads ++ [(s.bufByte s.bufAddr.toNat).setWidth 32] } ∧
    (s.busy = true → hostWrite .word 0x038 w s = { s with ovr := true }) ∧
    (s.busy = false → ∃ t, hostWrite .word 0x038 w s = t ∧
      t = { s with bufAddr := s.bufAddr + 1, buf := t.buf } ∧
      t.bufByte s.bufAddr.toNat = w.extractLsb' 0 8 ∧
      ∀ x, x ≠ s.bufAddr.toNat → t.bufByte x = s.bufByte x)

/-- R63: an access that is not an aligned 32-bit access is not performed: a write changes no state, a read
returns 0 with no side effect (that the host records the 0 is the model's choice, log 6). -/
def Obligations.UnalignedOrNarrowAccessDoesNothing : Prop :=
  ∀ (s : State) (width : AccessWidth) (o : BitVec 12) (w : Word),
    width ≠ .word ∨ o.toNat % 4 ≠ 0 →
      hostWrite width o w s = s ∧ hostReadValue width o s = 0 ∧
        hostRead width o s = { s with reads := s.reads ++ [0] }

/-- R22, R40: ID reads its constant; a reserved offset reads 0, a write to it while IDLE changes nothing, and
while BUSY sets OVR; the read-only registers ignore writes in the same way. -/
def Obligations.ReservedAndReadOnlyIgnoreWrites : Prop :=
  ∀ (s : State) (w : Word), hostReadValue .word 0x000 s = 0x48434501 ∧
    (∀ o : BitVec 12, reservedOffset o → o.toNat % 4 = 0 → hostReadValue .word o s = 0 ∧
      hostWrite .word o w s = { s with ovr := s.ovr || s.busy }) ∧
    ∀ r : Reg, (r = .id ∨ r = .res ∨ r = .outlen ∨ ∃ i, r = .vout i) →
      hostWrite .word (regOffset r) w s = { s with ovr := s.ovr || s.busy }

/-- R36 to R39: the register map: the offset of each register, a multiple of 4, selects that register and
no other, and the aligned offsets without a register are the reserved ones. -/
def Obligations.RegisterMapIsExact : Prop :=
  (∀ (o : BitVec 12) (r : Reg), regAt o = some r ↔ o = regOffset r) ∧
    [regAt 0x000, regAt 0x004, regAt 0x008, regAt 0x00C, regAt 0x010, regAt 0x014, regAt 0x018,
      regAt 0x01C, regAt 0x020, regAt 0x024, regAt 0x028, regAt 0x02C, regAt 0x030, regAt 0x034,
      regAt 0x038] =
      [some .id, some .ctrl, some .status, some .cmd, some .mod, some .dim, some .opa, some .opb,
        some .res, some .src, some .dst, some .len, some .outlen, some .bufAddr, some .bufData] ∧
    (∀ r : Reg, (regOffset r).toNat % 4 = 0) ∧
    (∀ o : BitVec 12, o.toNat % 4 = 0 → (regAt o = none ↔ reservedOffset o)) ∧
    (∀ j : Fin 16, (regOffset (.vin j)).toNat = 0x100 + 4 * j.val ∧
      (regOffset (.vout j)).toNat = 0x200 + 4 * j.val) ∧
    ∀ i j : Fin 16, (regOffset (.mat .m0 i j)).toNat = 0x400 + 4 * (16 * i.val + j.val) ∧
      (regOffset (.mat .m1 i j)).toNat = 0x800 + 4 * (16 * i.val + j.val)

/-- R27 to R38, R216: while IDLE, a write to a configuration, operand, region, vector or matrix register
reads back its stored bits, reserved bits 0, and every other register reads as before (BUF_DATA also
depends on BUF_ADDR). -/
def Obligations.WrittenRegisterReadsBack : Prop :=
  ∀ (s : State) (r : Reg) (w mask : Word), s.busy = false → writeMask r = some mask →
    let t := hostWrite .word (regOffset r) w s
    hostReadValue .word (regOffset r) t = w &&& mask ∧
      ∀ r' : Reg, r' ≠ r → (r = .bufAddr → r' ≠ .bufData) →
        hostReadValue .word (regOffset r') t = hostReadValue .word (regOffset r') s

/-- R185: IRQ is IE AND DONE; every completion, that of an illegal word included, raises it if IE is 1;
acceptance, a write of 1 to DONE and the resets lower it. -/
def Obligations.IrqFollowsCompletion : Prop :=
  ∀ s : State, s.irq = (s.ie && s.done) ∧
    (∀ i t, exec i s = .next t → t.irq = s.ie) ∧
    (∀ t, s.engine = .busy 0 → engineStep s = .next t → t.irq = s.ie) ∧
    (∀ w, s.busy = false → (hostWrite .word 0x00C w s).irq = false) ∧
    (∀ w : Word, w.getLsbD 1 = true → (hostWrite .word 0x008 w s).irq = false) ∧
    (softReset s).irq = false ∧ (hardReset s).irq = false

/-- R35, R65, R88: BUFWRITE stores its bytes from its address on, past the last address at 0 again, and
changes no other byte, and BUFREAD of the same range then returns them in order. -/
def Obligations.BufWriteThenBufReadReturnsBytes : Prop :=
  ∀ (s : State) (a : BitVec 16) (bytes : List Byte) (rest : List Event),
    s.resetInput = false → s.busy = false → bytes.length ≤ 65536 →
    s.agenda = expandOp (.bufWrite a bytes) ++ expandOp (.bufRead a bytes.length) ++ rest →
      ∃ t : State, runSteps (2 * bytes.length + 2) s = .next t ∧ t.agenda = rest ∧
        t.reads = s.reads ++ bytes.map (fun b => b.setWidth 32) ∧
        t.bufAddr = a + BitVec.ofNat 16 bytes.length ∧
        (∀ k (h : k < bytes.length), t.bufByte ((a.toNat + k) % 65536) = bytes[k]) ∧
        ∀ x, (∀ k < bytes.length, x ≠ (a.toNat + k) % 65536) → t.bufByte x = s.bufByte x
end

