-- ==== Sys2Proof/Laws/Arith.lean ====
section
/-! SUPPORT. The arithmetic of the engine computes what R10 defines: the permutation-sum determinant, the
cofactor transpose, and the unique inverse modulo m. -/

namespace Sys2Proof.Machine

/-! ### The inverse modulo m -/

/-- With enough rounds the loop returns a t with t a ≡ gcd(r0, r1) modulo m. -/
theorem euclidLoop_spec (m a : Int) (fuel : Nat) :
    ∀ (r0 r1 : Nat) (t0 t1 : Int), r1 ≤ fuel → m ∣ (r0 : Int) - t0 * a → m ∣ (r1 : Int) - t1 * a →
      m ∣ (Nat.gcd r0 r1 : Int) - euclidLoop fuel r0 r1 t0 t1 * a := by
  induction fuel with
  | zero =>
    intro r0 r1 t0 t1 hf h0 _
    obtain rfl : r1 = 0 := by omega
    simpa [euclidLoop] using h0
  | succ fuel ih =>
    intro r0 r1 t0 t1 hf h0 h1
    rw [euclidLoop]
    split
    · next hz => subst hz; simpa using h0
    · next hz =>
      have hlt : r0 % r1 < r1 := Nat.mod_lt _ (Nat.pos_of_ne_zero hz)
      have hr : ((r0 % r1 : Nat) : Int) = r0 - (r0 / r1 : Nat) * r1 := by
        have h : ((r1 * (r0 / r1) + r0 % r1 : Nat) : Int) = r0 := by rw [Nat.div_add_mod]
        push_cast at h ⊢
        linarith
      have h2 : m ∣ ((r0 % r1 : Nat) : Int) - (t0 - ((r0 / r1 : Nat) : Int) * t1) * a := by
        have e : ((r0 % r1 : Nat) : Int) - (t0 - ((r0 / r1 : Nat) : Int) * t1) * a =
            ((r0 : Int) - t0 * a) - ((r0 / r1 : Nat) : Int) * ((r1 : Int) - t1 * a) := by
          rw [hr]; ring
        rw [e]
        exact dvd_sub h0 (Dvd.dvd.mul_left h1 _)
      have hg : Nat.gcd r0 r1 = Nat.gcd r1 (r0 % r1) := by
        rw [Nat.gcd_comm r0 r1, Nat.gcd_rec r1 r0, Nat.gcd_comm]
      rw [hg]
      exact ih r1 (r0 % r1) t1 _ (by omega) h1 h2

/-- The inverse is a residue. -/
theorem invMod_lt (a : Nat) {m : Nat} (hm : 0 < m) : invMod a m < m := by
  have h0 := Int.emod_nonneg (euclidLoop m m (a % m) 0 1) (b := (m : Int)) (by omega)
  have h1 := Int.emod_lt_of_pos (euclidLoop m m (a % m) 0 1) (b := (m : Int)) (by omega)
  unfold invMod
  omega

/-- `inv_mod` inverts: (a x) mod m = 1 (R10, R104). -/
theorem mul_invMod {a m : Nat} (hm : 2 ≤ m) (hg : Nat.gcd (a % m) m = 1) :
    a * invMod a m % m = 1 := by
  set t := euclidLoop m m (a % m) 0 1 with ht
  have hspec : (m : Int) ∣ (Nat.gcd m (a % m) : Int) - t * ((a % m : Nat) : Int) :=
    euclidLoop_spec m ((a % m : Nat) : Int) m m (a % m) 0 1
      (Nat.mod_lt a (by omega)).le (by simp) (by simp)
  rw [Nat.gcd_comm, hg] at hspec
  have hx : ((invMod a m : Nat) : Int) = t % m := by
    unfold invMod
    rw [← ht]
    exact Int.toNat_of_nonneg (Int.emod_nonneg _ (by omega))
  have hmod : ((a : Int) * invMod a m) % m = 1 % m := by
    have e1 : (t * ((a % m : Nat) : Int)) % m = 1 % m :=
      ((Int.emod_emod_of_dvd _ (dvd_refl _)).symm.trans (by
        rw [Int.emod_emod_of_dvd _ (dvd_refl (m : Int))]
        exact (Int.emod_eq_emod_iff_emod_sub_eq_zero.2 (Int.emod_eq_zero_of_dvd (by
          have := (dvd_neg).2 hspec
          simpa using this)))))
    rw [hx, ← e1]
    push_cast
    rw [Int.mul_emod, Int.emod_emod_of_dvd _ (dvd_refl (m : Int)), Int.mul_emod t,
      Int.emod_emod_of_dvd _ (dvd_refl (m : Int)), mul_comm]
  have h1 : (1 : Int) % m = 1 := Int.emod_eq_of_lt (by omega) (by omega)
  rw [h1] at hmod
  exact_mod_cast hmod

/-- The inverse is unique among the residues (R10). -/
theorem invMod_unique {a m x : Nat} (hm : 2 ≤ m) (hg : Nat.gcd (a % m) m = 1) (hx : x < m)
    (h : a * x % m = 1) : x = invMod a m := by
  have hy := mul_invMod hm hg
  have hlt := invMod_lt a (show 0 < m by omega)
  have key : x ≡ invMod a m [MOD m] := by
    have e : a * x ≡ a * invMod a m [MOD m] := by rw [Nat.ModEq, h, hy]
    have hc : Nat.gcd m a = 1 := by rw [Nat.gcd_rec, hg]
    exact Nat.ModEq.cancel_left_of_coprime hc e
  rwa [Nat.ModEq, Nat.mod_eq_of_lt hx, Nat.mod_eq_of_lt hlt] at key

/-! ### Tables -/

/-- Entry (i, j) of a table is the value it was made from. -/
theorem entryAt_tab {n i j : Nat} (f : Nat → Nat → Int) (hi : i < n) (hj : j < n) :
    entryAt (tab n f) i j = f i j := by
  simp [entryAt, tab, hi, hj]

@[simp] theorem tab_length {α : Type} (n : Nat) (f : Nat → Nat → α) : (tab n f).length = n := by
  simp [tab]

/-- The n x n matrix of a table. -/
def toMatrix (n : Nat) (A : List (List Int)) : Matrix (Fin n) (Fin n) ℤ := fun i j => entryAt A i j

theorem toMatrix_tab (n : Nat) (f : Nat → Nat → Int) :
    toMatrix n (tab n f) = fun i j => f i.val j.val := by
  funext i j
  exact entryAt_tab f i.isLt j.isLt

theorem val_succAbove {n : Nat} (r : Fin (n + 1)) (i : Fin n) :
    (r.succAbove i).val = skip r.val i.val := by
  unfold skip
  split
  · next h => rw [Fin.succAbove_of_castSucc_lt _ _ (by simpa [Fin.lt_def] using h)]; rfl
  · next h =>
    rw [Fin.succAbove_of_le_castSucc _ _ (by simpa [Fin.le_def] using h)]; rfl

/-! ### The determinant -/

/-- Expansion on a non-zero entry of the first column: the identity behind `det`. -/
theorem condense {n : Nat} (M : Matrix (Fin (n + 1)) (Fin (n + 1)) ℤ) (r : Fin (n + 1)) :
    M r 0 ^ n * M.det = (-1) ^ r.val * (M r 0 *
      Matrix.det (fun i j : Fin n =>
        M r 0 * M (r.succAbove i) j.succ - M (r.succAbove i) 0 * M r j.succ)) := by
  set p := M r 0 with hp
  let v : Fin (n + 1) → ℤ := fun i => if i = r then 1 else p
  let S : Matrix (Fin (n + 1)) (Fin (n + 1)) ℤ := Matrix.of fun i j => v i * M i j
  let T : Matrix (Fin (n + 1)) (Fin (n + 1)) ℤ :=
    fun i j => if i = r then M r j else p * M i j - M i 0 * M r j
  have hS : S.det = p ^ n * M.det := by
    rw [Matrix.det_mul_column v M]
    congr 1
    rw [Fin.prod_univ_succAbove _ r]
    simp [v, Fin.succAbove_ne]
  have hT : T.det = S.det := by
    refine Matrix.det_eq_of_forall_row_eq_smul_add_const (fun i => if i = r then 0 else - M i 0) r
      (by simp) (fun i j => ?_)
    by_cases h : i = r
    · subst h; simp [T, S, v]
    · simp [T, S, v, h]; ring
  have hcol : ∀ i, i ≠ r → T i 0 = 0 := fun i h => by simp [T, h, ← hp]; ring
  rw [← hS, ← hT, Matrix.det_succ_column T 0, Finset.sum_eq_single r (fun i _ h => by simp [hcol i h])
    (by simp)]
  have hsub : T.submatrix r.succAbove (Fin.succAbove 0) = fun i j : Fin n =>
      p * M (r.succAbove i) j.succ - M (r.succAbove i) 0 * M r j.succ := by
    funext i j
    simp [T, Matrix.submatrix, Fin.succAbove_ne]
  rw [hsub]
  simp [T, ← hp, mul_assoc]

/-- `det` is the determinant: the permutation sum of R10, which is Mathlib's definition. -/
theorem det_eq_matrixDet (n : Nat) : ∀ A : List (List Int), det n A = (toMatrix n A).det := by
  induction n with
  | zero => intro A; simp [det]
  | succ n ih =>
    intro A
    rw [det]
    split
    · next h =>
      have h0 : ∀ i : Fin (n + 1), toMatrix (n + 1) A i 0 = 0 := fun i => by
        have := List.find?_eq_none.1 h i.val (List.mem_range.2 i.isLt)
        simpa [toMatrix] using this
      exact (Matrix.det_eq_zero_of_column_eq_zero 0 h0).symm
    · next r h =>
      have hr : r < n + 1 := List.mem_range.1 (List.mem_of_find?_eq_some h)
      have hp : entryAt A r 0 ≠ 0 := by simpa using List.find?_some h
      have hB : toMatrix n (tab n fun i j =>
          entryAt A r 0 * entryAt A (skip r i) (j + 1) - entryAt A (skip r i) 0 * entryAt A r (j + 1)) =
          fun i j : Fin n => toMatrix (n + 1) A ⟨r, hr⟩ 0 *
              toMatrix (n + 1) A (Fin.succAbove ⟨r, hr⟩ i) j.succ -
            toMatrix (n + 1) A (Fin.succAbove ⟨r, hr⟩ i) 0 * toMatrix (n + 1) A ⟨r, hr⟩ j.succ := by
        rw [toMatrix_tab]
        funext i j
        simp [toMatrix, val_succAbove]
      have key := condense (toMatrix (n + 1) A) ⟨r, hr⟩
      rw [← hB, ← ih] at key
      have hp0 : toMatrix (n + 1) A ⟨r, hr⟩ 0 = entryAt A r 0 := rfl
      rw [hp0] at key
      have hpn : entryAt A r 0 ^ n ≠ 0 := pow_ne_zero _ hp
      have hsq : ((-1 : ℤ) ^ r) * (-1) ^ r = 1 := by rw [← mul_pow]; simp
      have hdiv : entryAt A r 0 * det n (tab n fun i j =>
          entryAt A r 0 * entryAt A (skip r i) (j + 1) - entryAt A (skip r i) 0 * entryAt A r (j + 1)) /
          entryAt A r 0 ^ n = (-1) ^ r * (toMatrix (n + 1) A).det := by
        apply Int.ediv_eq_of_eq_mul_right hpn
        rw [mul_left_comm, key, ← mul_assoc, hsq, one_mul]
      simp only [hdiv]
      rw [← mul_assoc, hsq, one_mul]

/-- Entry (i, j) of the adjugate is the signed determinant of the minor (j, i): the cofactor transpose
(R10, R123), which is Mathlib's adjugate. -/
theorem adjEntry_eq_adjugate {n : Nat} (A : List (List Int)) (i j : Fin n) :
    adjEntry n A i j = (toMatrix n A).adjugate i j := by
  obtain _ | n := n
  · exact i.elim0
  · rw [Matrix.adjugate_fin_succ_eq_det_submatrix]
    unfold adjEntry
    rw [det_eq_matrixDet, Nat.add_comm i.val j.val]
    congr 2
    change toMatrix n (minorOf n A j i) = _
    rw [minorOf, toMatrix_tab]
    funext a b
    simp [toMatrix, Matrix.submatrix, val_succAbove]

/-! ### Residues, sums and products -/

theorem residue_lt (a : Int) {m : Nat} (hm : 0 < m) : residue a m < m := by
  have h0 := Int.emod_nonneg a (b := (m : Int)) (by omega)
  have h1 := Int.emod_lt_of_pos a (b := (m : Int)) (by omega)
  unfold residue
  omega

/-- The residue of a as an integer. -/
theorem residue_cast (a : Int) {m : Nat} (hm : 0 < m) : (residue a m : Int) = a % m :=
  Int.toNat_of_nonneg (Int.emod_nonneg a (by omega))

/-- The product of two lists made from functions is the sum of R130. -/
theorem dot_map_range (n : Nat) : ∀ f g : Nat → Nat,
    dot ((List.range n).map f) ((List.range n).map g) = ∑ j ∈ Finset.range n, f j * g j := by
  induction n with
  | zero => intro f g; simp [dot]
  | succ n ih =>
    intro f g
    rw [List.range_succ_eq_map, Finset.sum_range_succ']
    simp only [List.map_cons, List.map_map, dot]
    rw [ih, Nat.add_comm]
    rfl

@[simp] theorem matVecMod_length (M : Nat) (A : List (List Nat)) (v : List Nat) :
    (matVecMod M A v).length = A.length := by
  simp [matVecMod]

/-- Element i of a matrix-vector product is the sum of R130 reduced modulo M. -/
theorem matVecMod_tab {M n i : Nat} (f : Nat → Nat → Nat) (g : Nat → Nat) (hi : i < n) :
    (matVecMod M (tab n f) ((List.range n).map g)).getD i 0 =
      (∑ j ∈ Finset.range n, f i j * g j) % M := by
  simp [matVecMod, tab, hi, dot_map_range]

end Sys2Proof.Machine
end

