-- ==== Sys2Proof/Laws/State.lean ====
section
/-! SUPPORT. One lemma per field for every named update of State, so that no proof unfolds one. -/

namespace Sys2Proof.Machine

/-! ### completeOk -/

@[simp] theorem completeOk_ie (s : State) : (completeOk s).ie = s.ie := rfl
@[simp] theorem completeOk_done (s : State) : (completeOk s).done = true := rfl
@[simp] theorem completeOk_err (s : State) : (completeOk s).err = s.err := rfl
@[simp] theorem completeOk_ovr (s : State) : (completeOk s).ovr = s.ovr := rfl
@[simp] theorem completeOk_errcode (s : State) : (completeOk s).errcode = 0 := rfl
@[simp] theorem completeOk_cmd (s : State) : (completeOk s).cmd = s.cmd := rfl
@[simp] theorem completeOk_modulus (s : State) : (completeOk s).modulus = s.modulus := rfl
@[simp] theorem completeOk_dim (s : State) : (completeOk s).dim = s.dim := rfl
@[simp] theorem completeOk_opa (s : State) : (completeOk s).opa = s.opa := rfl
@[simp] theorem completeOk_opb (s : State) : (completeOk s).opb = s.opb := rfl
@[simp] theorem completeOk_res (s : State) : (completeOk s).res = s.res := rfl
@[simp] theorem completeOk_src (s : State) : (completeOk s).src = s.src := rfl
@[simp] theorem completeOk_dst (s : State) : (completeOk s).dst = s.dst := rfl
@[simp] theorem completeOk_len (s : State) : (completeOk s).len = s.len := rfl
@[simp] theorem completeOk_outlen (s : State) : (completeOk s).outlen = s.outlen := rfl
@[simp] theorem completeOk_bufAddr (s : State) : (completeOk s).bufAddr = s.bufAddr := rfl
@[simp] theorem completeOk_vin (s : State) : (completeOk s).vin = s.vin := rfl
@[simp] theorem completeOk_vout (s : State) : (completeOk s).vout = s.vout := rfl
@[simp] theorem completeOk_mat0 (s : State) : (completeOk s).mat0 = s.mat0 := rfl
@[simp] theorem completeOk_mat1 (s : State) : (completeOk s).mat1 = s.mat1 := rfl
@[simp] theorem completeOk_buf (s : State) : (completeOk s).buf = s.buf := rfl
@[simp] theorem completeOk_engine (s : State) : (completeOk s).engine = .idle := rfl
@[simp] theorem completeOk_resetInput (s : State) : (completeOk s).resetInput = s.resetInput := rfl
@[simp] theorem completeOk_bufEpoch (s : State) : (completeOk s).bufEpoch = s.bufEpoch := rfl
@[simp] theorem completeOk_agenda (s : State) : (completeOk s).agenda = s.agenda := rfl
@[simp] theorem completeOk_reads (s : State) : (completeOk s).reads = s.reads := rfl

/-! ### completeError -/

@[simp] theorem completeError_ie (e : ErrorCode) (s : State) : (completeError e s).ie = s.ie := rfl
@[simp] theorem completeError_done (e : ErrorCode) (s : State) : (completeError e s).done = true := rfl
@[simp] theorem completeError_err (e : ErrorCode) (s : State) : (completeError e s).err = true := rfl
@[simp] theorem completeError_ovr (e : ErrorCode) (s : State) : (completeError e s).ovr = s.ovr := rfl
@[simp] theorem completeError_errcode (e : ErrorCode) (s : State) : (completeError e s).errcode = e.code := rfl
@[simp] theorem completeError_cmd (e : ErrorCode) (s : State) : (completeError e s).cmd = s.cmd := rfl
@[simp] theorem completeError_modulus (e : ErrorCode) (s : State) : (completeError e s).modulus = s.modulus := rfl
@[simp] theorem completeError_dim (e : ErrorCode) (s : State) : (completeError e s).dim = s.dim := rfl
@[simp] theorem completeError_opa (e : ErrorCode) (s : State) : (completeError e s).opa = s.opa := rfl
@[simp] theorem completeError_opb (e : ErrorCode) (s : State) : (completeError e s).opb = s.opb := rfl
@[simp] theorem completeError_res (e : ErrorCode) (s : State) : (completeError e s).res = s.res := rfl
@[simp] theorem completeError_src (e : ErrorCode) (s : State) : (completeError e s).src = s.src := rfl
@[simp] theorem completeError_dst (e : ErrorCode) (s : State) : (completeError e s).dst = s.dst := rfl
@[simp] theorem completeError_len (e : ErrorCode) (s : State) : (completeError e s).len = s.len := rfl
@[simp] theorem completeError_outlen (e : ErrorCode) (s : State) : (completeError e s).outlen = s.outlen := rfl
@[simp] theorem completeError_bufAddr (e : ErrorCode) (s : State) : (completeError e s).bufAddr = s.bufAddr := rfl
@[simp] theorem completeError_vin (e : ErrorCode) (s : State) : (completeError e s).vin = s.vin := rfl
@[simp] theorem completeError_vout (e : ErrorCode) (s : State) : (completeError e s).vout = s.vout := rfl
@[simp] theorem completeError_mat0 (e : ErrorCode) (s : State) : (completeError e s).mat0 = s.mat0 := rfl
@[simp] theorem completeError_mat1 (e : ErrorCode) (s : State) : (completeError e s).mat1 = s.mat1 := rfl
@[simp] theorem completeError_buf (e : ErrorCode) (s : State) : (completeError e s).buf = s.buf := rfl
@[simp] theorem completeError_engine (e : ErrorCode) (s : State) : (completeError e s).engine = .idle := rfl
@[simp] theorem completeError_resetInput (e : ErrorCode) (s : State) : (completeError e s).resetInput = s.resetInput := rfl
@[simp] theorem completeError_bufEpoch (e : ErrorCode) (s : State) : (completeError e s).bufEpoch = s.bufEpoch := rfl
@[simp] theorem completeError_agenda (e : ErrorCode) (s : State) : (completeError e s).agenda = s.agenda := rfl
@[simp] theorem completeError_reads (e : ErrorCode) (s : State) : (completeError e s).reads = s.reads := rfl

/-! ### startCommand -/

@[simp] theorem startCommand_ie (w : Word) (k : Nat) (s : State) : (startCommand w k s).ie = s.ie := rfl
@[simp] theorem startCommand_done (w : Word) (k : Nat) (s : State) : (startCommand w k s).done = false := rfl
@[simp] theorem startCommand_err (w : Word) (k : Nat) (s : State) : (startCommand w k s).err = false := rfl
@[simp] theorem startCommand_ovr (w : Word) (k : Nat) (s : State) : (startCommand w k s).ovr = s.ovr := rfl
@[simp] theorem startCommand_errcode (w : Word) (k : Nat) (s : State) : (startCommand w k s).errcode = 0 := rfl
@[simp] theorem startCommand_cmd (w : Word) (k : Nat) (s : State) : (startCommand w k s).cmd = w := rfl
@[simp] theorem startCommand_modulus (w : Word) (k : Nat) (s : State) : (startCommand w k s).modulus = s.modulus := rfl
@[simp] theorem startCommand_dim (w : Word) (k : Nat) (s : State) : (startCommand w k s).dim = s.dim := rfl
@[simp] theorem startCommand_opa (w : Word) (k : Nat) (s : State) : (startCommand w k s).opa = s.opa := rfl
@[simp] theorem startCommand_opb (w : Word) (k : Nat) (s : State) : (startCommand w k s).opb = s.opb := rfl
@[simp] theorem startCommand_res (w : Word) (k : Nat) (s : State) : (startCommand w k s).res = s.res := rfl
@[simp] theorem startCommand_src (w : Word) (k : Nat) (s : State) : (startCommand w k s).src = s.src := rfl
@[simp] theorem startCommand_dst (w : Word) (k : Nat) (s : State) : (startCommand w k s).dst = s.dst := rfl
@[simp] theorem startCommand_len (w : Word) (k : Nat) (s : State) : (startCommand w k s).len = s.len := rfl
@[simp] theorem startCommand_outlen (w : Word) (k : Nat) (s : State) : (startCommand w k s).outlen = s.outlen := rfl
@[simp] theorem startCommand_bufAddr (w : Word) (k : Nat) (s : State) : (startCommand w k s).bufAddr = s.bufAddr := rfl
@[simp] theorem startCommand_vin (w : Word) (k : Nat) (s : State) : (startCommand w k s).vin = s.vin := rfl
@[simp] theorem startCommand_vout (w : Word) (k : Nat) (s : State) : (startCommand w k s).vout = s.vout := rfl
@[simp] theorem startCommand_mat0 (w : Word) (k : Nat) (s : State) : (startCommand w k s).mat0 = s.mat0 := rfl
@[simp] theorem startCommand_mat1 (w : Word) (k : Nat) (s : State) : (startCommand w k s).mat1 = s.mat1 := rfl
@[simp] theorem startCommand_buf (w : Word) (k : Nat) (s : State) : (startCommand w k s).buf = s.buf := rfl
@[simp] theorem startCommand_engine (w : Word) (k : Nat) (s : State) : (startCommand w k s).engine = .busy k := rfl
@[simp] theorem startCommand_resetInput (w : Word) (k : Nat) (s : State) : (startCommand w k s).resetInput = s.resetInput := rfl
@[simp] theorem startCommand_bufEpoch (w : Word) (k : Nat) (s : State) : (startCommand w k s).bufEpoch = s.bufEpoch := rfl
@[simp] theorem startCommand_agenda (w : Word) (k : Nat) (s : State) : (startCommand w k s).agenda = s.agenda := rfl
@[simp] theorem startCommand_reads (w : Word) (k : Nat) (s : State) : (startCommand w k s).reads = s.reads := rfl

/-! ### memWrite -/

@[simp] theorem memWrite_ie (s : State) (a : Nat) (bs : List Byte) : (memWrite s a bs).ie = s.ie := rfl
@[simp] theorem memWrite_done (s : State) (a : Nat) (bs : List Byte) : (memWrite s a bs).done = s.done := rfl
@[simp] theorem memWrite_err (s : State) (a : Nat) (bs : List Byte) : (memWrite s a bs).err = s.err := rfl
@[simp] theorem memWrite_ovr (s : State) (a : Nat) (bs : List Byte) : (memWrite s a bs).ovr = s.ovr := rfl
@[simp] theorem memWrite_errcode (s : State) (a : Nat) (bs : List Byte) : (memWrite s a bs).errcode = s.errcode := rfl
@[simp] theorem memWrite_cmd (s : State) (a : Nat) (bs : List Byte) : (memWrite s a bs).cmd = s.cmd := rfl
@[simp] theorem memWrite_modulus (s : State) (a : Nat) (bs : List Byte) : (memWrite s a bs).modulus = s.modulus := rfl
@[simp] theorem memWrite_dim (s : State) (a : Nat) (bs : List Byte) : (memWrite s a bs).dim = s.dim := rfl
@[simp] theorem memWrite_opa (s : State) (a : Nat) (bs : List Byte) : (memWrite s a bs).opa = s.opa := rfl
@[simp] theorem memWrite_opb (s : State) (a : Nat) (bs : List Byte) : (memWrite s a bs).opb = s.opb := rfl
@[simp] theorem memWrite_res (s : State) (a : Nat) (bs : List Byte) : (memWrite s a bs).res = s.res := rfl
@[simp] theorem memWrite_src (s : State) (a : Nat) (bs : List Byte) : (memWrite s a bs).src = s.src := rfl
@[simp] theorem memWrite_dst (s : State) (a : Nat) (bs : List Byte) : (memWrite s a bs).dst = s.dst := rfl
@[simp] theorem memWrite_len (s : State) (a : Nat) (bs : List Byte) : (memWrite s a bs).len = s.len := rfl
@[simp] theorem memWrite_outlen (s : State) (a : Nat) (bs : List Byte) : (memWrite s a bs).outlen = s.outlen := rfl
@[simp] theorem memWrite_bufAddr (s : State) (a : Nat) (bs : List Byte) : (memWrite s a bs).bufAddr = s.bufAddr := rfl
@[simp] theorem memWrite_vin (s : State) (a : Nat) (bs : List Byte) : (memWrite s a bs).vin = s.vin := rfl
@[simp] theorem memWrite_vout (s : State) (a : Nat) (bs : List Byte) : (memWrite s a bs).vout = s.vout := rfl
@[simp] theorem memWrite_mat0 (s : State) (a : Nat) (bs : List Byte) : (memWrite s a bs).mat0 = s.mat0 := rfl
@[simp] theorem memWrite_mat1 (s : State) (a : Nat) (bs : List Byte) : (memWrite s a bs).mat1 = s.mat1 := rfl
@[simp] theorem memWrite_buf (s : State) (a : Nat) (bs : List Byte) : (memWrite s a bs).buf = s.buf.store a bs := rfl
@[simp] theorem memWrite_engine (s : State) (a : Nat) (bs : List Byte) : (memWrite s a bs).engine = s.engine := rfl
@[simp] theorem memWrite_resetInput (s : State) (a : Nat) (bs : List Byte) : (memWrite s a bs).resetInput = s.resetInput := rfl
@[simp] theorem memWrite_bufEpoch (s : State) (a : Nat) (bs : List Byte) : (memWrite s a bs).bufEpoch = s.bufEpoch := rfl
@[simp] theorem memWrite_agenda (s : State) (a : Nat) (bs : List Byte) : (memWrite s a bs).agenda = s.agenda := rfl
@[simp] theorem memWrite_reads (s : State) (a : Nat) (bs : List Byte) : (memWrite s a bs).reads = s.reads := rfl

/-! ### commitCodec -/

@[simp] theorem commitCodec_ie (out : List Byte) (p : Nat) (s : State) : (commitCodec out p s).ie = s.ie := rfl
@[simp] theorem commitCodec_done (out : List Byte) (p : Nat) (s : State) : (commitCodec out p s).done = s.done := rfl
@[simp] theorem commitCodec_err (out : List Byte) (p : Nat) (s : State) : (commitCodec out p s).err = s.err := rfl
@[simp] theorem commitCodec_ovr (out : List Byte) (p : Nat) (s : State) : (commitCodec out p s).ovr = s.ovr := rfl
@[simp] theorem commitCodec_errcode (out : List Byte) (p : Nat) (s : State) : (commitCodec out p s).errcode = s.errcode := rfl
@[simp] theorem commitCodec_cmd (out : List Byte) (p : Nat) (s : State) : (commitCodec out p s).cmd = s.cmd := rfl
@[simp] theorem commitCodec_modulus (out : List Byte) (p : Nat) (s : State) : (commitCodec out p s).modulus = s.modulus := rfl
@[simp] theorem commitCodec_dim (out : List Byte) (p : Nat) (s : State) : (commitCodec out p s).dim = s.dim := rfl
@[simp] theorem commitCodec_opa (out : List Byte) (p : Nat) (s : State) : (commitCodec out p s).opa = s.opa := rfl
@[simp] theorem commitCodec_opb (out : List Byte) (p : Nat) (s : State) : (commitCodec out p s).opb = s.opb := rfl
@[simp] theorem commitCodec_res (out : List Byte) (p : Nat) (s : State) : (commitCodec out p s).res = BitVec.ofNat 32 p := rfl
@[simp] theorem commitCodec_src (out : List Byte) (p : Nat) (s : State) : (commitCodec out p s).src = s.src := rfl
@[simp] theorem commitCodec_dst (out : List Byte) (p : Nat) (s : State) : (commitCodec out p s).dst = s.dst := rfl
@[simp] theorem commitCodec_len (out : List Byte) (p : Nat) (s : State) : (commitCodec out p s).len = s.len := rfl
@[simp] theorem commitCodec_outlen (out : List Byte) (p : Nat) (s : State) : (commitCodec out p s).outlen = BitVec.ofNat 17 out.length := rfl
@[simp] theorem commitCodec_bufAddr (out : List Byte) (p : Nat) (s : State) : (commitCodec out p s).bufAddr = s.bufAddr := rfl
@[simp] theorem commitCodec_vin (out : List Byte) (p : Nat) (s : State) : (commitCodec out p s).vin = s.vin := rfl
@[simp] theorem commitCodec_vout (out : List Byte) (p : Nat) (s : State) : (commitCodec out p s).vout = s.vout := rfl
@[simp] theorem commitCodec_mat0 (out : List Byte) (p : Nat) (s : State) : (commitCodec out p s).mat0 = s.mat0 := rfl
@[simp] theorem commitCodec_mat1 (out : List Byte) (p : Nat) (s : State) : (commitCodec out p s).mat1 = s.mat1 := rfl
@[simp] theorem commitCodec_buf (out : List Byte) (p : Nat) (s : State) : (commitCodec out p s).buf = s.buf.store s.dst.toNat out := rfl
@[simp] theorem commitCodec_engine (out : List Byte) (p : Nat) (s : State) : (commitCodec out p s).engine = s.engine := rfl
@[simp] theorem commitCodec_resetInput (out : List Byte) (p : Nat) (s : State) : (commitCodec out p s).resetInput = s.resetInput := rfl
@[simp] theorem commitCodec_bufEpoch (out : List Byte) (p : Nat) (s : State) : (commitCodec out p s).bufEpoch = s.bufEpoch := rfl
@[simp] theorem commitCodec_agenda (out : List Byte) (p : Nat) (s : State) : (commitCodec out p s).agenda = s.agenda := rfl
@[simp] theorem commitCodec_reads (out : List Byte) (p : Nat) (s : State) : (commitCodec out p s).reads = s.reads := rfl

/-! ### advanceBufAddr -/

@[simp] theorem advanceBufAddr_ie (s : State) : (advanceBufAddr s).ie = s.ie := rfl
@[simp] theorem advanceBufAddr_done (s : State) : (advanceBufAddr s).done = s.done := rfl
@[simp] theorem advanceBufAddr_err (s : State) : (advanceBufAddr s).err = s.err := rfl
@[simp] theorem advanceBufAddr_ovr (s : State) : (advanceBufAddr s).ovr = s.ovr := rfl
@[simp] theorem advanceBufAddr_errcode (s : State) : (advanceBufAddr s).errcode = s.errcode := rfl
@[simp] theorem advanceBufAddr_cmd (s : State) : (advanceBufAddr s).cmd = s.cmd := rfl
@[simp] theorem advanceBufAddr_modulus (s : State) : (advanceBufAddr s).modulus = s.modulus := rfl
@[simp] theorem advanceBufAddr_dim (s : State) : (advanceBufAddr s).dim = s.dim := rfl
@[simp] theorem advanceBufAddr_opa (s : State) : (advanceBufAddr s).opa = s.opa := rfl
@[simp] theorem advanceBufAddr_opb (s : State) : (advanceBufAddr s).opb = s.opb := rfl
@[simp] theorem advanceBufAddr_res (s : State) : (advanceBufAddr s).res = s.res := rfl
@[simp] theorem advanceBufAddr_src (s : State) : (advanceBufAddr s).src = s.src := rfl
@[simp] theorem advanceBufAddr_dst (s : State) : (advanceBufAddr s).dst = s.dst := rfl
@[simp] theorem advanceBufAddr_len (s : State) : (advanceBufAddr s).len = s.len := rfl
@[simp] theorem advanceBufAddr_outlen (s : State) : (advanceBufAddr s).outlen = s.outlen := rfl
@[simp] theorem advanceBufAddr_bufAddr (s : State) : (advanceBufAddr s).bufAddr = s.bufAddr + 1 := rfl
@[simp] theorem advanceBufAddr_vin (s : State) : (advanceBufAddr s).vin = s.vin := rfl
@[simp] theorem advanceBufAddr_vout (s : State) : (advanceBufAddr s).vout = s.vout := rfl
@[simp] theorem advanceBufAddr_mat0 (s : State) : (advanceBufAddr s).mat0 = s.mat0 := rfl
@[simp] theorem advanceBufAddr_mat1 (s : State) : (advanceBufAddr s).mat1 = s.mat1 := rfl
@[simp] theorem advanceBufAddr_buf (s : State) : (advanceBufAddr s).buf = s.buf := rfl
@[simp] theorem advanceBufAddr_engine (s : State) : (advanceBufAddr s).engine = s.engine := rfl
@[simp] theorem advanceBufAddr_resetInput (s : State) : (advanceBufAddr s).resetInput = s.resetInput := rfl
@[simp] theorem advanceBufAddr_bufEpoch (s : State) : (advanceBufAddr s).bufEpoch = s.bufEpoch := rfl
@[simp] theorem advanceBufAddr_agenda (s : State) : (advanceBufAddr s).agenda = s.agenda := rfl
@[simp] theorem advanceBufAddr_reads (s : State) : (advanceBufAddr s).reads = s.reads := rfl

/-! ### dropWrite -/

@[simp] theorem dropWrite_ie (s : State) : (dropWrite s).ie = s.ie := rfl
@[simp] theorem dropWrite_done (s : State) : (dropWrite s).done = s.done := rfl
@[simp] theorem dropWrite_err (s : State) : (dropWrite s).err = s.err := rfl
@[simp] theorem dropWrite_ovr (s : State) : (dropWrite s).ovr = true := rfl
@[simp] theorem dropWrite_errcode (s : State) : (dropWrite s).errcode = s.errcode := rfl
@[simp] theorem dropWrite_cmd (s : State) : (dropWrite s).cmd = s.cmd := rfl
@[simp] theorem dropWrite_modulus (s : State) : (dropWrite s).modulus = s.modulus := rfl
@[simp] theorem dropWrite_dim (s : State) : (dropWrite s).dim = s.dim := rfl
@[simp] theorem dropWrite_opa (s : State) : (dropWrite s).opa = s.opa := rfl
@[simp] theorem dropWrite_opb (s : State) : (dropWrite s).opb = s.opb := rfl
@[simp] theorem dropWrite_res (s : State) : (dropWrite s).res = s.res := rfl
@[simp] theorem dropWrite_src (s : State) : (dropWrite s).src = s.src := rfl
@[simp] theorem dropWrite_dst (s : State) : (dropWrite s).dst = s.dst := rfl
@[simp] theorem dropWrite_len (s : State) : (dropWrite s).len = s.len := rfl
@[simp] theorem dropWrite_outlen (s : State) : (dropWrite s).outlen = s.outlen := rfl
@[simp] theorem dropWrite_bufAddr (s : State) : (dropWrite s).bufAddr = s.bufAddr := rfl
@[simp] theorem dropWrite_vin (s : State) : (dropWrite s).vin = s.vin := rfl
@[simp] theorem dropWrite_vout (s : State) : (dropWrite s).vout = s.vout := rfl
@[simp] theorem dropWrite_mat0 (s : State) : (dropWrite s).mat0 = s.mat0 := rfl
@[simp] theorem dropWrite_mat1 (s : State) : (dropWrite s).mat1 = s.mat1 := rfl
@[simp] theorem dropWrite_buf (s : State) : (dropWrite s).buf = s.buf := rfl
@[simp] theorem dropWrite_engine (s : State) : (dropWrite s).engine = s.engine := rfl
@[simp] theorem dropWrite_resetInput (s : State) : (dropWrite s).resetInput = s.resetInput := rfl
@[simp] theorem dropWrite_bufEpoch (s : State) : (dropWrite s).bufEpoch = s.bufEpoch := rfl
@[simp] theorem dropWrite_agenda (s : State) : (dropWrite s).agenda = s.agenda := rfl
@[simp] theorem dropWrite_reads (s : State) : (dropWrite s).reads = s.reads := rfl

/-! ### clearStatus -/

@[simp] theorem clearStatus_ie (w : Word) (s : State) : (clearStatus w s).ie = s.ie := rfl
@[simp] theorem clearStatus_done (w : Word) (s : State) : (clearStatus w s).done = (s.done && !w.getLsbD 1) := rfl
@[simp] theorem clearStatus_err (w : Word) (s : State) : (clearStatus w s).err = (s.err && !w.getLsbD 2) := rfl
@[simp] theorem clearStatus_ovr (w : Word) (s : State) : (clearStatus w s).ovr = (s.ovr && !w.getLsbD 3) := rfl
@[simp] theorem clearStatus_errcode (w : Word) (s : State) : (clearStatus w s).errcode = s.errcode := rfl
@[simp] theorem clearStatus_cmd (w : Word) (s : State) : (clearStatus w s).cmd = s.cmd := rfl
@[simp] theorem clearStatus_modulus (w : Word) (s : State) : (clearStatus w s).modulus = s.modulus := rfl
@[simp] theorem clearStatus_dim (w : Word) (s : State) : (clearStatus w s).dim = s.dim := rfl
@[simp] theorem clearStatus_opa (w : Word) (s : State) : (clearStatus w s).opa = s.opa := rfl
@[simp] theorem clearStatus_opb (w : Word) (s : State) : (clearStatus w s).opb = s.opb := rfl
@[simp] theorem clearStatus_res (w : Word) (s : State) : (clearStatus w s).res = s.res := rfl
@[simp] theorem clearStatus_src (w : Word) (s : State) : (clearStatus w s).src = s.src := rfl
@[simp] theorem clearStatus_dst (w : Word) (s : State) : (clearStatus w s).dst = s.dst := rfl
@[simp] theorem clearStatus_len (w : Word) (s : State) : (clearStatus w s).len = s.len := rfl
@[simp] theorem clearStatus_outlen (w : Word) (s : State) : (clearStatus w s).outlen = s.outlen := rfl
@[simp] theorem clearStatus_bufAddr (w : Word) (s : State) : (clearStatus w s).bufAddr = s.bufAddr := rfl
@[simp] theorem clearStatus_vin (w : Word) (s : State) : (clearStatus w s).vin = s.vin := rfl
@[simp] theorem clearStatus_vout (w : Word) (s : State) : (clearStatus w s).vout = s.vout := rfl
@[simp] theorem clearStatus_mat0 (w : Word) (s : State) : (clearStatus w s).mat0 = s.mat0 := rfl
@[simp] theorem clearStatus_mat1 (w : Word) (s : State) : (clearStatus w s).mat1 = s.mat1 := rfl
@[simp] theorem clearStatus_buf (w : Word) (s : State) : (clearStatus w s).buf = s.buf := rfl
@[simp] theorem clearStatus_engine (w : Word) (s : State) : (clearStatus w s).engine = s.engine := rfl
@[simp] theorem clearStatus_resetInput (w : Word) (s : State) : (clearStatus w s).resetInput = s.resetInput := rfl
@[simp] theorem clearStatus_bufEpoch (w : Word) (s : State) : (clearStatus w s).bufEpoch = s.bufEpoch := rfl
@[simp] theorem clearStatus_agenda (w : Word) (s : State) : (clearStatus w s).agenda = s.agenda := rfl
@[simp] theorem clearStatus_reads (w : Word) (s : State) : (clearStatus w s).reads = s.reads := rfl

/-! ### softReset -/

@[simp] theorem softReset_ie (s : State) : (softReset s).ie = false := rfl
@[simp] theorem softReset_done (s : State) : (softReset s).done = false := rfl
@[simp] theorem softReset_err (s : State) : (softReset s).err = false := rfl
@[simp] theorem softReset_ovr (s : State) : (softReset s).ovr = false := rfl
@[simp] theorem softReset_errcode (s : State) : (softReset s).errcode = 0 := rfl
@[simp] theorem softReset_cmd (s : State) : (softReset s).cmd = 0 := rfl
@[simp] theorem softReset_modulus (s : State) : (softReset s).modulus = 256 := rfl
@[simp] theorem softReset_dim (s : State) : (softReset s).dim = 3 := rfl
@[simp] theorem softReset_opa (s : State) : (softReset s).opa = 0 := rfl
@[simp] theorem softReset_opb (s : State) : (softReset s).opb = 0 := rfl
@[simp] theorem softReset_res (s : State) : (softReset s).res = 0 := rfl
@[simp] theorem softReset_src (s : State) : (softReset s).src = 0 := rfl
@[simp] theorem softReset_dst (s : State) : (softReset s).dst = 0 := rfl
@[simp] theorem softReset_len (s : State) : (softReset s).len = 0 := rfl
@[simp] theorem softReset_outlen (s : State) : (softReset s).outlen = 0 := rfl
@[simp] theorem softReset_bufAddr (s : State) : (softReset s).bufAddr = 0 := rfl
@[simp] theorem softReset_vin (s : State) : (softReset s).vin = Vector.replicate 16 0 := rfl
@[simp] theorem softReset_vout (s : State) : (softReset s).vout = Vector.replicate 16 0 := rfl
@[simp] theorem softReset_mat0 (s : State) : (softReset s).mat0 = Vector.replicate 16 (Vector.replicate 16 0) := rfl
@[simp] theorem softReset_mat1 (s : State) : (softReset s).mat1 = Vector.replicate 16 (Vector.replicate 16 0) := rfl
@[simp] theorem softReset_buf (s : State) : (softReset s).buf = s.buf := rfl
@[simp] theorem softReset_engine (s : State) : (softReset s).engine = .idle := rfl
@[simp] theorem softReset_resetInput (s : State) : (softReset s).resetInput = s.resetInput := rfl
@[simp] theorem softReset_bufEpoch (s : State) : (softReset s).bufEpoch = s.bufEpoch := rfl
@[simp] theorem softReset_agenda (s : State) : (softReset s).agenda = s.agenda := rfl
@[simp] theorem softReset_reads (s : State) : (softReset s).reads = s.reads := rfl

/-! ### hardReset -/

@[simp] theorem hardReset_ie (s : State) : (hardReset s).ie = false := rfl
@[simp] theorem hardReset_done (s : State) : (hardReset s).done = false := rfl
@[simp] theorem hardReset_err (s : State) : (hardReset s).err = false := rfl
@[simp] theorem hardReset_ovr (s : State) : (hardReset s).ovr = false := rfl
@[simp] theorem hardReset_errcode (s : State) : (hardReset s).errcode = 0 := rfl
@[simp] theorem hardReset_cmd (s : State) : (hardReset s).cmd = 0 := rfl
@[simp] theorem hardReset_modulus (s : State) : (hardReset s).modulus = 256 := rfl
@[simp] theorem hardReset_dim (s : State) : (hardReset s).dim = 3 := rfl
@[simp] theorem hardReset_opa (s : State) : (hardReset s).opa = 0 := rfl
@[simp] theorem hardReset_opb (s : State) : (hardReset s).opb = 0 := rfl
@[simp] theorem hardReset_res (s : State) : (hardReset s).res = 0 := rfl
@[simp] theorem hardReset_src (s : State) : (hardReset s).src = 0 := rfl
@[simp] theorem hardReset_dst (s : State) : (hardReset s).dst = 0 := rfl
@[simp] theorem hardReset_len (s : State) : (hardReset s).len = 0 := rfl
@[simp] theorem hardReset_outlen (s : State) : (hardReset s).outlen = 0 := rfl
@[simp] theorem hardReset_bufAddr (s : State) : (hardReset s).bufAddr = 0 := rfl
@[simp] theorem hardReset_vin (s : State) : (hardReset s).vin = Vector.replicate 16 0 := rfl
@[simp] theorem hardReset_vout (s : State) : (hardReset s).vout = Vector.replicate 16 0 := rfl
@[simp] theorem hardReset_mat0 (s : State) : (hardReset s).mat0 = Vector.replicate 16 (Vector.replicate 16 0) := rfl
@[simp] theorem hardReset_mat1 (s : State) : (hardReset s).mat1 = Vector.replicate 16 (Vector.replicate 16 0) := rfl
@[simp] theorem hardReset_buf (s : State) : (hardReset s).buf = [] := rfl
@[simp] theorem hardReset_engine (s : State) : (hardReset s).engine = .idle := rfl
@[simp] theorem hardReset_resetInput (s : State) : (hardReset s).resetInput = s.resetInput := rfl
@[simp] theorem hardReset_bufEpoch (s : State) : (hardReset s).bufEpoch = s.bufEpoch + 1 := rfl
@[simp] theorem hardReset_agenda (s : State) : (hardReset s).agenda = s.agenda := rfl
@[simp] theorem hardReset_reads (s : State) : (hardReset s).reads = s.reads := rfl

/-! ### The state after reset -/

@[simp] theorem State.reset_ie : State.reset.ie = false := rfl
@[simp] theorem State.reset_done : State.reset.done = false := rfl
@[simp] theorem State.reset_err : State.reset.err = false := rfl
@[simp] theorem State.reset_ovr : State.reset.ovr = false := rfl
@[simp] theorem State.reset_errcode : State.reset.errcode = 0 := rfl
@[simp] theorem State.reset_cmd : State.reset.cmd = 0 := rfl
@[simp] theorem State.reset_modulus : State.reset.modulus = 256 := rfl
@[simp] theorem State.reset_dim : State.reset.dim = 3 := rfl
@[simp] theorem State.reset_opa : State.reset.opa = 0 := rfl
@[simp] theorem State.reset_opb : State.reset.opb = 0 := rfl
@[simp] theorem State.reset_res : State.reset.res = 0 := rfl
@[simp] theorem State.reset_src : State.reset.src = 0 := rfl
@[simp] theorem State.reset_dst : State.reset.dst = 0 := rfl
@[simp] theorem State.reset_len : State.reset.len = 0 := rfl
@[simp] theorem State.reset_outlen : State.reset.outlen = 0 := rfl
@[simp] theorem State.reset_bufAddr : State.reset.bufAddr = 0 := rfl
@[simp] theorem State.reset_vin : State.reset.vin = Vector.replicate 16 0 := rfl
@[simp] theorem State.reset_vout : State.reset.vout = Vector.replicate 16 0 := rfl
@[simp] theorem State.reset_mat0 : State.reset.mat0 = Vector.replicate 16 (Vector.replicate 16 0) := rfl
@[simp] theorem State.reset_mat1 : State.reset.mat1 = Vector.replicate 16 (Vector.replicate 16 0) := rfl
@[simp] theorem State.reset_buf : State.reset.buf = [] := rfl
@[simp] theorem State.reset_engine : State.reset.engine = .idle := rfl
@[simp] theorem State.reset_resetInput : State.reset.resetInput = false := rfl
@[simp] theorem State.reset_bufEpoch : State.reset.bufEpoch = 0 := rfl
@[simp] theorem State.reset_agenda : State.reset.agenda = [] := rfl
@[simp] theorem State.reset_reads : State.reset.reads = [] := rfl

/-! ### setMat -/

@[simp] theorem setMat_ie (s : State) (m : MatSel) (v : MatReg) : (s.setMat m v).ie = s.ie := by
  cases m <;> rfl
@[simp] theorem setMat_done (s : State) (m : MatSel) (v : MatReg) : (s.setMat m v).done = s.done := by
  cases m <;> rfl
@[simp] theorem setMat_err (s : State) (m : MatSel) (v : MatReg) : (s.setMat m v).err = s.err := by
  cases m <;> rfl
@[simp] theorem setMat_ovr (s : State) (m : MatSel) (v : MatReg) : (s.setMat m v).ovr = s.ovr := by
  cases m <;> rfl
@[simp] theorem setMat_errcode (s : State) (m : MatSel) (v : MatReg) : (s.setMat m v).errcode = s.errcode := by
  cases m <;> rfl
@[simp] theorem setMat_cmd (s : State) (m : MatSel) (v : MatReg) : (s.setMat m v).cmd = s.cmd := by
  cases m <;> rfl
@[simp] theorem setMat_modulus (s : State) (m : MatSel) (v : MatReg) : (s.setMat m v).modulus = s.modulus := by
  cases m <;> rfl
@[simp] theorem setMat_dim (s : State) (m : MatSel) (v : MatReg) : (s.setMat m v).dim = s.dim := by
  cases m <;> rfl
@[simp] theorem setMat_opa (s : State) (m : MatSel) (v : MatReg) : (s.setMat m v).opa = s.opa := by
  cases m <;> rfl
@[simp] theorem setMat_opb (s : State) (m : MatSel) (v : MatReg) : (s.setMat m v).opb = s.opb := by
  cases m <;> rfl
@[simp] theorem setMat_res (s : State) (m : MatSel) (v : MatReg) : (s.setMat m v).res = s.res := by
  cases m <;> rfl
@[simp] theorem setMat_src (s : State) (m : MatSel) (v : MatReg) : (s.setMat m v).src = s.src := by
  cases m <;> rfl
@[simp] theorem setMat_dst (s : State) (m : MatSel) (v : MatReg) : (s.setMat m v).dst = s.dst := by
  cases m <;> rfl
@[simp] theorem setMat_len (s : State) (m : MatSel) (v : MatReg) : (s.setMat m v).len = s.len := by
  cases m <;> rfl
@[simp] theorem setMat_outlen (s : State) (m : MatSel) (v : MatReg) : (s.setMat m v).outlen = s.outlen := by
  cases m <;> rfl
@[simp] theorem setMat_bufAddr (s : State) (m : MatSel) (v : MatReg) : (s.setMat m v).bufAddr = s.bufAddr := by
  cases m <;> rfl
@[simp] theorem setMat_vin (s : State) (m : MatSel) (v : MatReg) : (s.setMat m v).vin = s.vin := by
  cases m <;> rfl
@[simp] theorem setMat_vout (s : State) (m : MatSel) (v : MatReg) : (s.setMat m v).vout = s.vout := by
  cases m <;> rfl
@[simp] theorem setMat_buf (s : State) (m : MatSel) (v : MatReg) : (s.setMat m v).buf = s.buf := by
  cases m <;> rfl
@[simp] theorem setMat_engine (s : State) (m : MatSel) (v : MatReg) : (s.setMat m v).engine = s.engine := by
  cases m <;> rfl
@[simp] theorem setMat_resetInput (s : State) (m : MatSel) (v : MatReg) : (s.setMat m v).resetInput = s.resetInput := by
  cases m <;> rfl
@[simp] theorem setMat_bufEpoch (s : State) (m : MatSel) (v : MatReg) : (s.setMat m v).bufEpoch = s.bufEpoch := by
  cases m <;> rfl
@[simp] theorem setMat_agenda (s : State) (m : MatSel) (v : MatReg) : (s.setMat m v).agenda = s.agenda := by
  cases m <;> rfl
@[simp] theorem setMat_reads (s : State) (m : MatSel) (v : MatReg) : (s.setMat m v).reads = s.reads := by
  cases m <;> rfl

/-- Reading a matrix register after writing one: the written one has the new value, the other is kept. -/
theorem mat_setMat (s : State) (d m : MatSel) (v : MatReg) :
    (s.setMat d v).mat m = if m = d then v else s.mat m := by
  cases d <;> cases m <;> rfl

@[simp] theorem mat_setMat_same (s : State) (m : MatSel) (v : MatReg) : (s.setMat m v).mat m = v := by
  cases m <;> rfl

/-! ### Views of the state -/

@[simp] theorem completeOk_busy (s : State) : (completeOk s).busy = false := rfl
@[simp] theorem completeError_busy (e : ErrorCode) (s : State) : (completeError e s).busy = false := rfl
@[simp] theorem startCommand_busy (w : Word) (k : Nat) (s : State) : (startCommand w k s).busy = true := rfl
@[simp] theorem memWrite_busy (s : State) (a : Nat) (bs : List Byte) : (memWrite s a bs).busy = s.busy := rfl
@[simp] theorem commitCodec_busy (out : List Byte) (p : Nat) (s : State) : (commitCodec out p s).busy = s.busy := rfl
@[simp] theorem advanceBufAddr_busy (s : State) : (advanceBufAddr s).busy = s.busy := rfl
@[simp] theorem dropWrite_busy (s : State) : (dropWrite s).busy = s.busy := rfl
@[simp] theorem clearStatus_busy (w : Word) (s : State) : (clearStatus w s).busy = s.busy := rfl
@[simp] theorem softReset_busy (s : State) : (softReset s).busy = false := rfl
@[simp] theorem hardReset_busy (s : State) : (hardReset s).busy = false := rfl
@[simp] theorem State.reset_busy : State.reset.busy = false := rfl
@[simp] theorem completeOk_mat (s : State) (m : MatSel) : (completeOk s).mat m = s.mat m := by
  cases m <;> rfl
@[simp] theorem completeError_mat (e : ErrorCode) (s : State) (m : MatSel) : (completeError e s).mat m = s.mat m := by
  cases m <;> rfl
@[simp] theorem startCommand_mat (w : Word) (k : Nat) (s : State) (m : MatSel) : (startCommand w k s).mat m = s.mat m := by
  cases m <;> rfl
@[simp] theorem memWrite_mat (s : State) (a : Nat) (bs : List Byte) (m : MatSel) : (memWrite s a bs).mat m = s.mat m := by
  cases m <;> rfl
@[simp] theorem commitCodec_mat (out : List Byte) (p : Nat) (s : State) (m : MatSel) : (commitCodec out p s).mat m = s.mat m := by
  cases m <;> rfl
@[simp] theorem advanceBufAddr_mat (s : State) (m : MatSel) : (advanceBufAddr s).mat m = s.mat m := by
  cases m <;> rfl
@[simp] theorem dropWrite_mat (s : State) (m : MatSel) : (dropWrite s).mat m = s.mat m := by
  cases m <;> rfl
@[simp] theorem clearStatus_mat (w : Word) (s : State) (m : MatSel) : (clearStatus w s).mat m = s.mat m := by
  cases m <;> rfl
@[simp] theorem completeOk_bufByte (s : State) (x : Nat) : (completeOk s).bufByte x = s.bufByte x := rfl
@[simp] theorem completeError_bufByte (e : ErrorCode) (s : State) (x : Nat) : (completeError e s).bufByte x = s.bufByte x := rfl
@[simp] theorem startCommand_bufByte (w : Word) (k : Nat) (s : State) (x : Nat) : (startCommand w k s).bufByte x = s.bufByte x := rfl
@[simp] theorem advanceBufAddr_bufByte (s : State) (x : Nat) : (advanceBufAddr s).bufByte x = s.bufByte x := rfl
@[simp] theorem dropWrite_bufByte (s : State) (x : Nat) : (dropWrite s).bufByte x = s.bufByte x := rfl
@[simp] theorem clearStatus_bufByte (w : Word) (s : State) (x : Nat) : (clearStatus w s).bufByte x = s.bufByte x := rfl
@[simp] theorem softReset_bufByte (s : State) (x : Nat) : (softReset s).bufByte x = s.bufByte x := rfl
@[simp] theorem setMat_bufByte (s : State) (m : MatSel) (v : MatReg) (x : Nat) :
    (s.setMat m v).bufByte x = s.bufByte x := by
  cases m <;> rfl

@[simp] theorem setMat_busy (s : State) (m : MatSel) (v : MatReg) : (s.setMat m v).busy = s.busy := by
  cases m <;> rfl

end Sys2Proof.Machine
end

