-- ==== Sys2Proof/Laws/Memory.lean ====
section
/-! SUPPORT. The laws of BUF: a read after a write, the canonical form, and the lengths of byte lists. -/

namespace Sys2Proof.Machine

theorem lookup_append (m1 m2 : Memory) (x : Nat) :
    List.lookup x (m1 ++ m2) = (List.lookup x m1).or (List.lookup x m2) := by
  induction m1 with
  | nil => simp
  | cons c m1 ih =>
    obtain ⟨k, b⟩ := c
    by_cases h : x = k
    · subst h; simp
    · simp [List.lookup_cons, beq_eq_false_iff_ne.2 h, ih]

/-- Looking up in the cells that satisfy a test on addresses. -/
theorem lookup_filter (m : Memory) (p : Nat → Bool) (x : Nat) :
    List.lookup x (m.filter fun c => p c.1) = if p x then List.lookup x m else none := by
  induction m with
  | nil => simp
  | cons c m ih =>
    obtain ⟨k, b⟩ := c
    by_cases h : x = k
    · subst h
      by_cases hp : p x
      · simp [hp]
      · simp [hp, ih]
    · by_cases hk : p k
      · simp [hk, List.lookup_cons, beq_eq_false_iff_ne.2 h, ih]
      · simp [hk, List.lookup_cons, beq_eq_false_iff_ne.2 h, ih]

/-- Looking up in consecutive cells. -/
theorem lookup_cellsFrom (bytes : List Byte) : ∀ a x : Nat,
    List.lookup x (cellsFrom a bytes) = if a ≤ x then bytes[x - a]? else none := by
  induction bytes with
  | nil => intro a x; simp [cellsFrom]
  | cons b bs ih =>
    intro a x
    rw [cellsFrom, List.lookup_cons]
    by_cases h : x = a
    · subst h; simp
    · rw [beq_eq_false_iff_ne.2 h, ih]
      by_cases hle : a ≤ x
      · obtain ⟨d, rfl⟩ : ∃ d, x = a + 1 + d := ⟨x - a - 1, by omega⟩
        have e : a + 1 + d - a = d + 1 := by omega
        simp [e, show a ≤ a + 1 + d by omega]
      · simp [hle, show ¬a + 1 ≤ x by omega]

/-- A read after a store: the stored byte inside the range, the old byte outside. -/
theorem lookup_store (m : Memory) (a : Nat) (bytes : List Byte) (x : Nat) :
    (m.store a bytes).lookup x =
      if a ≤ x ∧ x < a + bytes.length then bytes[x - a]? else m.lookup x := by
  unfold Memory.lookup Memory.store
  rw [lookup_append, lookup_append, lookup_filter m (fun k => decide (k < a)),
    lookup_filter m (fun k => decide (a + bytes.length ≤ k)), lookup_cellsFrom]
  by_cases h1 : x < a
  · simp [h1, show ¬a ≤ x by omega, show ¬a + bytes.length ≤ x by omega]
  · by_cases h2 : x < a + bytes.length
    · have h3 : x - a < bytes.length := by omega
      simp [h1, h2, show a ≤ x by omega, h3, show ¬a + bytes.length ≤ x by omega]
    · have h3 : bytes.length ≤ x - a := by omega
      simp [h1, h2, show a ≤ x by omega, h3, show a + bytes.length ≤ x by omega]

theorem cellsFrom_bounds (bytes : List Byte) : ∀ (a : Nat) (c : Host.Cell),
    c ∈ cellsFrom a bytes → a ≤ c.1 ∧ c.1 < a + bytes.length := by
  induction bytes with
  | nil => intro a c h; simp [cellsFrom] at h
  | cons b bs ih =>
    intro a c h
    rw [cellsFrom, List.mem_cons] at h
    obtain rfl | h := h
    · simp
    · have := ih (a + 1) c h
      simp only [List.length_cons]
      omega

theorem cellsFrom_rising (bytes : List Byte) : ∀ a : Nat,
    (cellsFrom a bytes).Pairwise fun x y => x.1 < y.1 := by
  induction bytes with
  | nil => intro a; simp [cellsFrom]
  | cons b bs ih =>
    intro a
    rw [cellsFrom, List.pairwise_cons]
    exact ⟨fun c hc => by have := cellsFrom_bounds bs (a + 1) c hc; omega, ih (a + 1)⟩

/-- A store inside BUF keeps the canonical form. -/
theorem store_wf {m : Memory} (hm : m.wf) {a : Nat} {bytes : List Byte}
    (hb : a + bytes.length ≤ Config.bufBytes) : (m.store a bytes).wf := by
  obtain ⟨hp, hlt⟩ := hm
  refine ⟨?_, ?_⟩
  · unfold Memory.store
    rw [List.pairwise_append, List.pairwise_append]
    refine ⟨⟨hp.filter _, cellsFrom_rising bytes a, ?_⟩, hp.filter _, ?_⟩
    · intro x hx y hy
      have h1 := (List.mem_filter.1 hx).2
      have h2 := cellsFrom_bounds bytes a y hy
      simp only [decide_eq_true_eq] at h1
      omega
    · intro x hx y hy
      have h2 := (List.mem_filter.1 hy).2
      simp only [decide_eq_true_eq] at h2
      obtain hx | hx := List.mem_append.1 hx
      · have h1 := (List.mem_filter.1 hx).2
        simp only [decide_eq_true_eq] at h1
        omega
      · have h1 := cellsFrom_bounds bytes a x hx
        omega
  · intro c hc
    unfold Memory.store at hc
    rw [List.mem_append, List.mem_append] at hc
    obtain (hc | hc) | hc := hc
    · exact hlt c (List.mem_filter.1 hc).1
    · have := cellsFrom_bounds bytes a c hc
      omega
    · exact hlt c (List.mem_filter.1 hc).1

/-- BUF after a store, byte by byte. -/
theorem bufByte_memWrite (s : State) (a : Nat) (bytes : List Byte) (x : Nat) :
    (memWrite s a bytes).bufByte x =
      if h : a ≤ x ∧ x < a + bytes.length then bytes[x - a]'(by omega) else s.bufByte x := by
  unfold State.bufByte
  rw [memWrite_buf, lookup_store]
  by_cases h : a ≤ x ∧ x < a + bytes.length
  · have h3 : x - a < bytes.length := by omega
    simp [h, h3]
  · simp [h]

/-- A byte outside the stored range is unchanged. -/
theorem bufByte_memWrite_outside (s : State) {a x : Nat} {bytes : List Byte}
    (h : x < a ∨ a + bytes.length ≤ x) : (memWrite s a bytes).bufByte x = s.bufByte x := by
  rw [bufByte_memWrite, dif_neg (by omega)]

/-- Reading back exactly the stored range gives the stored bytes. -/
theorem memRead_memWrite (s : State) (a : Nat) (bytes : List Byte) :
    memRead (memWrite s a bytes) a bytes.length = bytes := by
  apply List.ext_getElem
  · simp [memRead]
  · intro i h1 h2
    simp only [memRead, List.getElem_map, List.getElem_range, bufByte_memWrite]
    rw [dif_pos ⟨by omega, by omega⟩]
    congr 1
    omega

@[simp] theorem memRead_length (s : State) (a n : Nat) : (memRead s a n).length = n := by
  simp [memRead]

@[simp] theorem commitCodec_bufByte (out : List Byte) (p : Nat) (s : State) (x : Nat) :
    (commitCodec out p s).bufByte x = (memWrite s s.dst.toNat out).bufByte x := rfl

@[simp] theorem inputBytes_length (s : State) : (inputBytes s).length = s.len.toNat := by
  simp [inputBytes]

@[simp] theorem paddedInput_length (s : State) :
    (paddedInput s).length = s.len.toNat + padLen s.N s.len.toNat := by
  simp [paddedInput]

/-- p is below N (R144). -/
theorem padLen_lt {N : Nat} (len : Nat) (hN : 0 < N) : padLen N len < N := Nat.mod_lt _ hN

/-- The padded length is a multiple of N (R155). -/
theorem padLen_aligned {N : Nat} (len : Nat) (hN : 0 < N) : (len + padLen N len) % N = 0 := by
  have h1 := Nat.mod_lt len hN
  have h2 := Nat.div_add_mod len N
  unfold padLen
  by_cases h : len % N = 0
  · simp [h]
  · rw [Nat.mod_eq_of_lt (show N - len % N < N by omega)]
    have e : len + (N - len % N) = N * (len / N + 1) := by rw [Nat.mul_add]; omega
    rw [e, Nat.mul_mod_right]

/-- The transform of k Blocks has k N bytes. -/
theorem transformBlocks_length {N M : Nat} {A : List (List Nat)} (hA : A.length = N) (k : Nat) :
    ∀ bytes : List Byte, (transformBlocks N M A k bytes).length = k * N := by
  induction k with
  | zero => intro bytes; simp [transformBlocks]
  | succ k ih =>
    intro bytes
    simp [transformBlocks, ih, hA, Nat.succ_mul, Nat.add_comm]

/-- The length of an aligned input after the transform of all its Blocks. -/
theorem transformBlocks_length_aligned {N M : Nat} {A : List (List Nat)} (hA : A.length = N)
    {bytes : List Byte} (h : bytes.length % N = 0) :
    (transformBlocks N M A (bytes.length / N) bytes).length = bytes.length := by
  rw [transformBlocks_length hA, Nat.div_mul_cancel (Nat.dvd_of_mod_eq_zero h)]

/-- The Blocks of a transform: Block b of the output is the transform of Block b of the input, at the
same positions (R140, R156). -/
theorem transformBlocks_block {N M : Nat} {A : List (List Nat)} (hA : A.length = N) (k : Nat) :
    ∀ (bytes : List Byte) (b : Nat), b < k →
      ((transformBlocks N M A k bytes).drop (b * N)).take N =
        (matVecMod M A (((bytes.drop (b * N)).take N).map BitVec.toNat)).map (BitVec.ofNat 8) := by
  induction k with
  | zero => intro bytes b hb; omega
  | succ k ih =>
    intro bytes b hb
    rw [transformBlocks]
    cases b with
    | zero =>
      rw [Nat.zero_mul, List.drop_zero, List.drop_zero]
      exact List.take_left' (by simp [hA])
    | succ b =>
      have e : (b + 1) * N = N + b * N := by rw [Nat.succ_mul, Nat.add_comm]
      have hl : ((matVecMod M A ((bytes.take N).map BitVec.toNat)).map (BitVec.ofNat 8)).length = N := by
        simp [hA]
      rw [e, ← List.drop_drop, ← List.drop_drop, List.drop_left' hl]
      exact ih (bytes.drop N) b (by omega)

end Sys2Proof.Machine
end

