-- ==== Sys2Proof/Laws/Ops.lean ====
section
/-! SUPPORT. What a command can do, said once: its checks and its commit, the outcome of `runCommand`, and
what each check means. -/

namespace Sys2Proof.Machine

/-- The checks of a command in order of priority (R174, R175). -/
def checksOf (i : Instr) (s : State) : List (Bool × ErrorCode) :=
  match i with
  | .nop | .gcd => []
  | .modinv => [(s.opb.toNat < 2, .operandRange),
      (Nat.gcd (s.opa.toNat % s.opb.toNat) s.opb.toNat != 1, .notInvertible)]
  | .det m | .adj _ m => [(badConfig s, .badConfig), (badMatrix s m, .operandRange)]
  | .inv _ m =>
    [(badConfig s, .badConfig), (badMatrix s m, .operandRange), (singular s m, .notInvertible)]
  | .matvec m =>
    [(badConfig s, .badConfig), (badMatrix s m, .operandRange), (badVector s, .operandRange)]
  | .pad => [(badDim s, .badConfig), (badRegions s (s.len.toNat + padLen s.N s.len.toNat), .bufferRange)]
  | .unpad => [(badRegions s s.len.toNat, .bufferRange),
      (s.len.toNat < padByte (inputBytes s), .corruptPadding)]
  | .enc m => [(badConfig s, .badConfig),
      (badRegions s (s.len.toNat + padLen s.N s.len.toNat), .bufferRange),
      (badMatrix s m, .operandRange), (badSymbols s (paddedInput s), .operandRange)]
  | .dec m => [(badConfig s, .badConfig), (badRegions s s.len.toNat, .bufferRange),
      (badMatrix s m, .operandRange), (badSymbols s (inputBytes s), .operandRange),
      (singular s m, .notInvertible), (s.len.toNat % s.N != 0, .invalidBlockAlignment),
      (s.len.toNat < padByte (plainBytes s m), .corruptPadding)]

/-- What a command writes besides STATUS when no check fails (R47). -/
def commitOf (i : Instr) (s : State) : State :=
  match i with
  | .nop => s
  | .gcd => { s with res := BitVec.ofNat 32 (Nat.gcd s.opa.toNat s.opb.toNat) }
  | .modinv => { s with res := BitVec.ofNat 32 (invMod s.opa.toNat s.opb.toNat) }
  | .det m => { s with res := BitVec.ofNat 32 (keyDet s m) }
  | .adj d m => s.setMat d (withTopLeft (s.mat d) s.N (keyAdj s m))
  | .inv d m => { s.setMat d (withTopLeft (s.mat d) s.N (keyInv s m)) with
      res := BitVec.ofNat 32 (keyDet s m) }
  | .matvec m => { s with
      vout := withFirst s.vout s.N fun i => (matVecMod s.M (keyRows s m) (vinList s)).getD i 0 }
  | .pad => commitCodec (paddedInput s) (padLen s.N s.len.toNat) s
  | .unpad => commitCodec ((inputBytes s).take (s.len.toNat - padByte (inputBytes s)))
      (padByte (inputBytes s)) s
  | .enc m => commitCodec (cipherBytes s m) (padLen s.N s.len.toNat) s
  | .dec m => commitCodec ((plainBytes s m).take (s.len.toNat - padByte (plainBytes s m)))
      (padByte (plainBytes s m)) s

/-- Every command is its checks and its commit. -/
theorem exec_eq (i : Instr) (s : State) :
    exec i s = match firstError (checksOf i s) with
      | some e => .next (completeError e s)
      | none => .next (completeOk (commitOf i s)) := by
  cases i <;> rfl

/-- A command whose checks all pass completes with its results. -/
theorem exec_ok {i : Instr} {s : State} (h : firstError (checksOf i s) = none) :
    exec i s = .next (completeOk (commitOf i s)) := by
  rw [exec_eq, h]

/-- A command one of whose checks fails completes with the first such error. -/
theorem exec_error {i : Instr} {s : State} {e : ErrorCode} (h : firstError (checksOf i s) = some e) :
    exec i s = .next (completeError e s) := by
  rw [exec_eq, h]

/-- Everything a command can do: complete with an error, or complete with its results. -/
theorem exec_cases {i : Instr} {s t : State} (h : exec i s = .next t) :
    (∃ e, firstError (checksOf i s) = some e ∧ t = completeError e s) ∨
      (firstError (checksOf i s) = none ∧ t = completeOk (commitOf i s)) := by
  rw [exec_eq] at h
  split at h
  · next e he => exact .inl ⟨e, he, (Host.Outcome.next.inj h).symm⟩
  · next he => exact .inr ⟨he, (Host.Outcome.next.inj h).symm⟩

@[simp] theorem firstError_nil : firstError [] = none := rfl

theorem firstError_cons (c : Bool) (e : ErrorCode) (rest : List (Bool × ErrorCode)) :
    firstError ((c, e) :: rest) = if c then some e else firstError rest := rfl

@[simp] theorem firstError_true (e : ErrorCode) (rest : List (Bool × ErrorCode)) :
    firstError ((true, e) :: rest) = some e := rfl

@[simp] theorem firstError_false (e : ErrorCode) (rest : List (Bool × ErrorCode)) :
    firstError ((false, e) :: rest) = firstError rest := rfl

/-- No error is found exactly if no condition holds. -/
theorem firstError_eq_none (l : List (Bool × ErrorCode)) :
    firstError l = none ↔ ∀ c ∈ l, c.1 = false := by
  induction l with
  | nil => simp
  | cons c l ih =>
    obtain ⟨b, e⟩ := c
    cases b <;> simp [ih]

/-- No error has code 0, and every error has a code that can be produced (R172). -/
theorem code_ne_zero (e : ErrorCode) : e.code ≠ 0 := by cases e <;> decide

/-! ### What the checks say -/

theorem badDim_eq_false (s : State) : badDim s = false ↔ 1 ≤ s.N ∧ s.N ≤ 16 := by
  simp [badDim, show Config.nmax = 16 from rfl, Nat.one_le_iff_ne_zero]

theorem badConfig_eq_false (s : State) :
    badConfig s = false ↔ 2 ≤ s.M ∧ s.M ≤ 256 ∧ 1 ≤ s.N ∧ s.N ≤ 16 := by
  have h := badDim_eq_false s
  simp only [badConfig, show Config.mmax = 256 from rfl, Bool.or_eq_false_iff, h, decide_eq_false_iff_not]
  omega

theorem badMatrix_eq_false (s : State) (m : MatSel) :
    badMatrix s m = false ↔ ∀ i < s.N, ∀ j < s.N, s.entry m i j < s.M := by
  simp [badMatrix, keyRows, tab]

theorem badVector_eq_false (s : State) : badVector s = false ↔ ∀ j < s.N, s.vinAt j < s.M := by
  simp [badVector, vinList]

theorem badSymbols_eq_false (s : State) (bytes : List Byte) :
    badSymbols s bytes = false ↔ ∀ b ∈ bytes, b.toNat < s.M := by
  simp [badSymbols]

theorem badRegions_eq_false (s : State) (maxout : Nat) :
    badRegions s maxout = false ↔
      s.src.toNat + s.len.toNat ≤ 65536 ∧ s.dst.toNat + maxout ≤ 65536 ∧
        (s.len.toNat = 0 ∨ maxout = 0 ∨ s.dst.toNat + maxout ≤ s.src.toNat ∨
          s.src.toNat + s.len.toNat ≤ s.dst.toNat) := by
  simp only [badRegions, show Config.bufBytes = 65536 from rfl, Bool.or_eq_false_iff,
    Bool.and_eq_false_iff, decide_eq_false_iff_not]
  omega

theorem singular_eq_false (s : State) (m : MatSel) :
    singular s m = false ↔ Nat.gcd (keyDet s m) s.M = 1 := by
  simp [singular]

/-! ### The matrix operands as matrices -/

/-- The top-left N x N entries of MAT[m] as an integer matrix. -/
theorem toMatrix_keyInts (s : State) (m : MatSel) :
    toMatrix s.N (keyInts s m) = fun i j => (s.entry m i.val j.val : ℤ) := by
  rw [keyInts, toMatrix_tab]

theorem keyDet_eq (s : State) (m : MatSel) :
    keyDet s m =
      residue (Matrix.det (fun i j : Fin s.N => (s.entry m i.val j.val : ℤ))) s.M := by
  rw [keyDet, det_eq_matrixDet, toMatrix_keyInts]

/-- The cofactor formula of R10 for an entry of the adjugate. -/
theorem adjEntry_eq (s : State) (m : MatSel) {i j : Nat} (hi : i < s.N) (hj : j < s.N) :
    adjEntry s.N (keyInts s m) i j = (-1) ^ (i + j) *
      Matrix.det (fun a b : Fin (s.N - 1) => (s.entry m (skip j a.val) (skip i b.val) : ℤ)) := by
  have hskip : ∀ {r : Nat} (a : Fin (s.N - 1)), r < s.N → skip r a.val < s.N := fun a hr => by
    have := a.isLt
    unfold skip
    split <;> omega
  unfold adjEntry
  rw [det_eq_matrixDet, minorOf, toMatrix_tab]
  congr 2
  funext a b
  exact entryAt_tab _ (hskip a hj) (hskip b hi)

/-- An entry of a matrix register whose top-left N x N was replaced. -/
theorem withTopLeft_get (old : MatReg) (N : Nat) (f : Nat → Nat → Nat) (i j : Fin 16) :
    (withTopLeft old N f)[i][j] =
      if i.val < N ∧ j.val < N then BitVec.ofNat 16 (f i.val j.val) else old[i][j] := by
  simp [withTopLeft]

/-- An entry of a vector register whose first N entries were replaced. -/
theorem withFirst_get (old : Vector Entry 16) (N : Nat) (f : Nat → Nat) (i : Fin 16) :
    (withFirst old N f)[i] = if i.val < N then BitVec.ofNat 16 (f i.val) else old[i] := by
  simp [withFirst]

/-! ### Steps -/

theorem perform_running {s : State} (h : s.resetInput = false) (e : Event) :
    perform e s = performRunning e s := by
  simp [perform, h]

/-- An event while the reset input is asserted, and its release (R200). -/
theorem perform_reset {s : State} (h : s.resetInput = true) (e : Event) :
    perform e s = .next (performInReset e s) := by
  simp [perform, h]

theorem step_nil {s : State} (h : s.agenda = []) : step s = perform .engine s := by
  simp [step, h]

/-- With nothing to perform and the reset input released, a step is an engine step (log 2). -/
theorem step_idle {s : State} (hr : s.resetInput = false) (h : s.agenda = []) :
    step s = engineStep s := by
  rw [step_nil h, perform_running hr]
  rfl

theorem step_cons {s : State} {e : Event} {rest : List Event} (h : s.agenda = e :: rest) :
    step s = perform e { s with agenda := rest } := by
  simp [step, h]

/-- The next event while the reset input is released. -/
theorem step_running {s : State} {e : Event} {rest : List Event} (hr : s.resetInput = false)
    (h : s.agenda = e :: rest) : step s = performRunning e { s with agenda := rest } := by
  rw [step_cons h, perform_running (s := { s with agenda := rest }) hr]

/-- Everything an event can do while the reset input is asserted: every register is at its reset value
afterwards, and only the level, the agenda and the host's record differ (R200). -/
theorem performInReset_eq (e : Event) (s : State) : ∃ (level : Bool) (agenda : List Event)
    (reads : List Word), performInReset e s =
      { State.reset with
        resetInput := level, bufEpoch := s.bufEpoch + 1, agenda := agenda, reads := reads } := by
  cases e <;> exact ⟨_, _, _, rfl⟩

/-- Everything an event can do while the reset input is released. -/
theorem performRunning_cases {e : Event} {s t : State} (h : performRunning e s = .next t) :
    (∃ w o v, e = .write w o v ∧ t = hostWrite w o v s) ∨
      (∃ w o, e = .read w o ∧ t = hostRead w o s) ∨ (e = .wait ∧ t = hostWait s) ∨
      (e = .engine ∧ engineStep s = .next t) ∨
      ∃ level, e = .resetInput level ∧ t = setResetInput level s := by
  cases e with
  | write w o v => exact .inl ⟨w, o, v, rfl, (Host.Outcome.next.inj h).symm⟩
  | read w o => exact .inr (.inl ⟨w, o, rfl, (Host.Outcome.next.inj h).symm⟩)
  | wait => exact .inr (.inr (.inl ⟨rfl, (Host.Outcome.next.inj h).symm⟩))
  | engine => exact .inr (.inr (.inr (.inl ⟨rfl, h⟩)))
  | resetInput level =>
    exact .inr (.inr (.inr (.inr ⟨level, rfl, (Host.Outcome.next.inj h).symm⟩)))

/-- Everything a step can do: with the reset input asserted, every register is at its reset value afterwards
(R200); with it released, an engine step if nothing is to come, else the next event. -/
theorem step_cases {s t : State} (h : step s = .next t) :
    (s.resetInput = true ∧ ∃ (level : Bool) (agenda : List Event) (reads : List Word), t =
      { State.reset with
        resetInput := level, bufEpoch := s.bufEpoch + 1, agenda := agenda, reads := reads }) ∨
    (s.resetInput = false ∧ s.agenda = [] ∧ engineStep s = .next t) ∨
    (s.resetInput = false ∧ ∃ e rest, s.agenda = e :: rest ∧
      performRunning e { s with agenda := rest } = .next t) := by
  rcases hr : s.resetInput with _ | _ <;> rcases ha : s.agenda with _ | ⟨e, rest⟩
  · exact .inr (.inl ⟨rfl, rfl, step_idle hr ha ▸ h⟩)
  · exact .inr (.inr ⟨rfl, e, rest, rfl, hr ▸ step_running hr ha ▸ h⟩)
  · rw [step_nil ha, perform_reset hr] at h
    exact .inl ⟨rfl, Host.Outcome.next.inj h ▸ performInReset_eq .engine s⟩
  · rw [step_cons ha, perform_reset (s := { s with agenda := rest }) hr] at h
    exact .inl ⟨rfl, Host.Outcome.next.inj h ▸ performInReset_eq e { s with agenda := rest }⟩

theorem engineStep_idle {s : State} (h : s.engine = .idle) : engineStep s = .next s := by
  simp [engineStep, h]

theorem engineStep_wait {s : State} {k : Nat} (h : s.engine = .busy (k + 1)) :
    engineStep s = .next { s with engine := .busy k } := by
  simp [engineStep, h]

theorem engineStep_last {s : State} (h : s.engine = .busy 0) : engineStep s = execWord s.cmd s := by
  simp [engineStep, h]

theorem execWord_ok {w : Word} {i : Instr} (h : decode w = .ok i) (s : State) :
    execWord w s = exec i s := by
  simp [execWord, h]

theorem execWord_illegal {w : Word} {e : DecodeError} (h : decode w = .error e) (s : State) :
    execWord w s = .next (completeError .illegalCommand s) := by
  simp [execWord, h, runCommand]

/-- Everything an engine step can do. -/
theorem engineStep_cases {s t : State} (h : engineStep s = .next t) :
    (s.engine = .idle ∧ t = s) ∨
      (∃ k, s.engine = .busy (k + 1) ∧ t = { s with engine := .busy k }) ∨
      (s.engine = .busy 0 ∧ ∃ i, decode s.cmd = .ok i ∧ exec i s = .next t) ∨
      (s.engine = .busy 0 ∧ (∃ e, decode s.cmd = .error e) ∧ t = completeError .illegalCommand s) := by
  rcases he : s.engine with _ | _ | k
  · rw [engineStep_idle he] at h
    exact .inl ⟨rfl, (Host.Outcome.next.inj h).symm⟩
  · rw [engineStep_last he] at h
    rcases hd : decode s.cmd with e | i
    · rw [execWord_illegal hd] at h
      exact .inr (.inr (.inr ⟨rfl, ⟨e, rfl⟩, (Host.Outcome.next.inj h).symm⟩))
    · rw [execWord_ok hd] at h
      exact .inr (.inr (.inl ⟨rfl, i, rfl, h⟩))
  · rw [engineStep_wait he] at h
    exact .inr (.inl ⟨k, rfl, (Host.Outcome.next.inj h).symm⟩)

end Sys2Proof.Machine
end

