-- ==== Sys2Proof/Laws/Codec.lean ====
section
/-! SUPPORT. The byte lists of the block codec, element by element (R140, R144, R149, R152). -/

namespace Sys2Proof.Machine

/-- The input region as the bytes at SRC, SRC + 1, ... -/
theorem inputBytes_eq (s : State) :
    inputBytes s = (List.range s.len.toNat).map fun k => s.bufByte (s.src.toNat + k) := rfl

/-- The PaddedBuffer: the input bytes, then p from LEN on (R144). -/
theorem paddedInput_eq (s : State) :
    paddedInput s = (List.range (s.len.toNat + padLen s.N s.len.toNat)).map fun k =>
      if k < s.len.toNat then s.bufByte (s.src.toNat + k)
      else BitVec.ofNat 8 (padLen s.N s.len.toNat) := by
  unfold paddedInput
  rw [inputBytes_eq, List.range_add, List.map_append, List.map_map]
  dsimp only
  congr 1
  · apply List.map_congr_left
    intro k hk
    rw [if_pos (List.mem_range.1 hk)]
  · apply List.ext_getElem
    · simp
    · intro k h1 h2
      simp

/-- A matrix made from a function times a vector made from a function, element by element. -/
theorem matVecMod_tab_eq (M N : Nat) (f : Nat → Nat → Nat) (g : Nat → Nat) :
    matVecMod M (tab N f) ((List.range N).map g) =
      (List.range N).map fun i => (∑ j ∈ Finset.range N, f i j * g j) % M := by
  simp [matVecMod, tab, dot_map_range]

/-- Byte x of the transform of k Blocks: element x mod N of the transform of Block x / N (R140, R149). -/
theorem transformBlocks_eq {N M : Nat} (hN : 0 < N) (f : Nat → Nat → Nat) (k : Nat) :
    ∀ g : Nat → Byte,
      transformBlocks N M (tab N f) k ((List.range (k * N)).map g) =
        (List.range (k * N)).map fun x => BitVec.ofNat 8
          ((∑ j ∈ Finset.range N, f (x % N) j * (g (x / N * N + j)).toNat) % M) := by
  induction k with
  | zero => intro g; simp [transformBlocks]
  | succ k ih =>
    intro g
    have hr : List.range ((k + 1) * N) = List.range N ++ (List.range (k * N)).map (N + ·) := by
      rw [Nat.succ_mul, Nat.add_comm, List.range_add]
    have hl : ((List.range N).map g).length = N := by simp
    rw [transformBlocks, hr, List.map_append, List.map_append, List.take_left' hl,
      List.drop_left' hl, List.map_map, List.map_map, List.map_map]
    congr 1
    · rw [matVecMod_tab_eq, List.map_map]
      apply List.map_congr_left
      intro i hi
      have hi := List.mem_range.1 hi
      simp [Nat.mod_eq_of_lt hi, Nat.div_eq_of_lt hi]
    · rw [ih]
      apply List.map_congr_left
      intro x _
      have e1 : (N + x) % N = x % N := by simp
      have e2 : (N + x) / N * N = N + x / N * N := by
        rw [Nat.add_div_left _ hN, Nat.succ_mul, Nat.add_comm]
      simp only [Function.comp, e1, e2, Nat.add_assoc]

/-- The same for a list whose length is a multiple of N, transformed whole. -/
theorem transformBlocks_map {N M n : Nat} (hN : 0 < N) (hn : n % N = 0) (f : Nat → Nat → Nat)
    (g : Nat → Byte) :
    transformBlocks N M (tab N f) (n / N) ((List.range n).map g) =
      (List.range n).map fun x => BitVec.ofNat 8
        ((∑ j ∈ Finset.range N, f (x % N) j * (g (x / N * N + j)).toNat) % M) := by
  have e : n / N * N = n := Nat.div_mul_cancel (Nat.dvd_of_mod_eq_zero hn)
  have h := transformBlocks_eq (M := M) hN f (n / N) g
  rwa [e] at h

/-- The ciphertext of ENC, byte by byte (R149). -/
theorem cipherBytes_eq {s : State} (m : MatSel) (hN : 0 < s.N) :
    cipherBytes s m = (List.range (s.len.toNat + padLen s.N s.len.toNat)).map fun x =>
      BitVec.ofNat 8 ((∑ j ∈ Finset.range s.N, s.entry m (x % s.N) j *
        (if x / s.N * s.N + j < s.len.toNat then s.bufByte (s.src.toNat + (x / s.N * s.N + j))
          else BitVec.ofNat 8 (padLen s.N s.len.toNat)).toNat) % s.M) := by
  unfold cipherBytes
  rw [paddedInput_length, paddedInput_eq, keyRows]
  exact transformBlocks_map hN (padLen_aligned _ hN) _ _

/-- The plaintext of DEC before unpadding, byte by byte (R152). -/
theorem plainBytes_eq {s : State} (m : MatSel) (hN : 0 < s.N) (ha : s.len.toNat % s.N = 0) :
    plainBytes s m = (List.range s.len.toNat).map fun x =>
      BitVec.ofNat 8 ((∑ j ∈ Finset.range s.N, keyInv s m (x % s.N) j *
        (s.bufByte (s.src.toNat + (x / s.N * s.N + j))).toNat) % s.M) := by
  unfold plainBytes
  rw [inputBytes_length, inputBytes_eq]
  exact transformBlocks_map hN ha _ _

/-- The last byte of a list made from a function: 0 for the empty list (R145). -/
theorem padByte_map (n : Nat) (g : Nat → Byte) :
    padByte ((List.range n).map g) = if n = 0 then 0 else (g (n - 1)).toNat := by
  unfold padByte
  cases n with
  | zero => simp
  | succ n => simp [List.range_succ]

end Sys2Proof.Machine
end

