-- ==== Sys2Proof/Laws/Claims.lean ====
section
/-! SUPPORT. The terms in which claims speak of the matrix operands are what the meanings compute. -/

namespace Sys2Proof.Machine

/-- `keyDet` is the determinant of R10 and R121. -/
theorem detMod_eq (s : State) (m : MatSel) : detMod s m = keyDet s m := (keyDet_eq s m).symm

/-- `adjEntry` is the cofactor formula of R10 and R124. -/
theorem adjugateEntry_eq (s : State) (m : MatSel) {i j : Nat} (hi : i < s.N) (hj : j < s.N) :
    adjugateEntry s m i j = adjEntry s.N (keyInts s m) i j := (adjEntry_eq s m hi hj).symm

/-- `keyInv` is the scaled adjugate of R127, for the inverse of the determinant that `invMod` gives. -/
theorem inverseEntry_eq (s : State) (m : MatSel) {i j : Nat} (hi : i < s.N) (hj : j < s.N) :
    inverseEntry s m (invMod (keyDet s m) s.M) i j = keyInv s m i j := by
  unfold inverseEntry
  rw [adjugateEntry_eq s m hi hj]
  rfl

/-- `padByte` of the input is the last byte of the input (R145, R146). -/
theorem lastInput_eq (s : State) : lastInput s = padByte (inputBytes s) := by
  rw [inputBytes_eq, padByte_map]
  rfl

/-- `padByte` of the plaintext is its last byte (R145, R152), for an aligned input. -/
theorem lastPlain_eq {s : State} (m : MatSel) (hN : 0 < s.N) (hM0 : 0 < s.M) (hM : s.M ≤ 256)
    (ha : s.len.toNat % s.N = 0) :
    lastPlain s m (invMod (keyDet s m) s.M) = padByte (plainBytes s m) := by
  rw [plainBytes_eq m hN ha, padByte_map]
  unfold lastPlain
  split
  · rfl
  · rw [BitVec.toNat_ofNat, Nat.mod_eq_of_lt (lt_of_lt_of_le (Nat.mod_lt _ hM0) hM)]
    unfold plainByte
    congr 1
    refine Finset.sum_congr rfl fun j hj => ?_
    rw [inverseEntry_eq s m (Nat.mod_lt _ hN) (Finset.mem_range.1 hj)]

end Sys2Proof.Machine
end

