-- ==== Sys2Proof/Laws/Decode.lean ====
section
/-! SUPPORT. A word is its fields, and its bytes in lane order (R62, R80). -/

namespace Sys2Proof

/-- A command word is `{RSV, D, S, OPC}` (R80, R81). -/
theorem word_eq_fields (w : Word) :
    w = rsv w ++ BitVec.ofBool (fieldD w) ++ BitVec.ofBool (fieldS w) ++ opc w := by
  apply BitVec.eq_of_getLsbD_eq
  intro i hi
  simp only [BitVec.getLsbD_append, rsv, fieldD, fieldS, opc, BitVec.getLsbD_extractLsb',
    BitVec.getLsbD_ofBool]
  interval_cases i <;> simp

/-- Two words with the same fields are the same word. -/
theorem word_ext {w u : Word} (h1 : rsv w = rsv u) (h2 : fieldD w = fieldD u)
    (h3 : fieldS w = fieldS u) (h4 : opc w = opc u) : w = u := by
  rw [word_eq_fields w, word_eq_fields u, h1, h2, h3, h4]

/-- The word whose lanes are the bytes of a word is that word (R62). -/
theorem wordOfBytes_lanes (w : Word) :
    wordOfBytes (w.extractLsb' 0 8) (w.extractLsb' 8 8) (w.extractLsb' 16 8) (w.extractLsb' 24 8) =
      w := by
  apply BitVec.eq_of_getLsbD_eq
  intro i hi
  simp only [wordOfBytes, BitVec.getLsbD_append, BitVec.getLsbD_extractLsb']
  interval_cases i <;> simp

/-- Decoding the bytes of a word is decoding the word, and leaves the bytes after it. -/
theorem decodeBytes_wordBytes (w : Word) (rest : List Byte) :
    decodeBytes (wordBytes w ++ rest) =
      match decode w with
      | .ok i => .ok (i, rest)
      | .error e => .error e := by
  rcases h : decode w with e | i <;> simp [wordBytes, decodeBytes, wordOfBytes_lanes, h]

/-- A table word of at most 32 bits decodes as the command word it is. -/
theorem decodeTableWord_eq {nbits w : Nat} {i : Instr} (h : decodeTableWord nbits w = some i) :
    decode (BitVec.ofNat 32 (w % 2 ^ nbits)) = .ok i := by
  unfold decodeTableWord at h
  split at h
  · have e := decodeBytes_wordBytes (BitVec.ofNat 32 (w % 2 ^ nbits)) []
    rw [List.append_nil] at e
    rw [e] at h
    rcases hd : decode (BitVec.ofNat 32 (w % 2 ^ nbits)) with e | j
    · simp [hd] at h
    · simp only [hd, Option.some.injEq] at h
      rw [h]
  · simp at h

end Sys2Proof
end

