-- ==== Sys2Proof/Laws/PerInstr.lean ====
section
/-! SUPPORT. Per-instruction facts: the encoding of every command lies in its own row of the opcode map. -/

namespace Sys2Proof.Laws.EncodeInRow

/-- The word of a command matches a row of R83 that bears its mnemonic, and its reserved bits are 0 (R80). -/
def Statement (i : Instr) : Prop :=
  rsv (encode i) = 0 ∧ ∃ r ∈ opcodeTable, rowMatches (encode i) r = true ∧ r.mnemonic = mnemonicOf i

theorem nop : Statement .nop := by unfold Statement; decide
theorem gcd : Statement .gcd := by unfold Statement; decide
theorem modinv : Statement .modinv := by unfold Statement; decide
theorem det (s : MatSel) : Statement (.det s) := by unfold Statement; cases s <;> decide
theorem adj (d s : MatSel) : Statement (.adj d s) := by
  unfold Statement; cases d <;> cases s <;> decide
theorem inv (d s : MatSel) : Statement (.inv d s) := by
  unfold Statement; cases d <;> cases s <;> decide
theorem matvec (s : MatSel) : Statement (.matvec s) := by unfold Statement; cases s <;> decide
theorem pad : Statement .pad := by unfold Statement; decide
theorem unpad : Statement .unpad := by unfold Statement; decide
theorem enc (s : MatSel) : Statement (.enc s) := by unfold Statement; cases s <;> decide
theorem dec (s : MatSel) : Statement (.dec s) := by unfold Statement; cases s <;> decide

end Sys2Proof.Laws.EncodeInRow
end

