-- ==== Sys2Proof/Laws/Run.lean ====
section
/-! SUPPORT. Runs: `runSteps` is the run of the host's interface, one step at a time. -/

namespace Sys2Proof.Machine

/-- A step never stops. -/
theorem engineStep_total (s : State) : ∃ t, engineStep s = .next t := by
  rcases he : s.engine with _ | _ | k
  · exact ⟨_, engineStep_idle he⟩
  · rw [engineStep_last he]
    rcases hd : decode s.cmd with e | i
    · exact ⟨_, execWord_illegal hd s⟩
    · rw [execWord_ok hd, exec_eq]
      split <;> exact ⟨_, rfl⟩
  · exact ⟨_, engineStep_wait he⟩

theorem perform_total (e : Event) (s : State) : ∃ t, perform e s = .next t := by
  rcases hr : s.resetInput with _ | _
  · rw [perform_running hr]
    cases e <;> first | exact ⟨_, rfl⟩ | exact engineStep_total _
  · exact ⟨_, perform_reset hr e⟩

theorem step_total (s : State) : ∃ t, step s = .next t := by
  rcases ha : s.agenda with _ | ⟨e, rest⟩
  · rw [step_nil ha]
    exact perform_total .engine s
  · rw [step_cons ha]
    exact perform_total e _

@[simp] theorem runSteps_zero (s : State) : runSteps 0 s = .next s := rfl

/-- The first step of a run. -/
theorem runSteps_succ {s t : State} (h : step s = .next t) (k : Nat) :
    runSteps (k + 1) s = runSteps k t := by
  simp [runSteps, h]

/-- A run in two parts. -/
theorem runSteps_add {s t : State} {p : Nat} (h : runSteps p s = .next t) (q : Nat) :
    runSteps (p + q) s = runSteps q t := by
  induction p generalizing s with
  | zero =>
    rw [Nat.zero_add]
    exact congrArg (runSteps q) (Host.Outcome.next.inj h)
  | succ p ih =>
    obtain ⟨u, hu⟩ := step_total s
    rw [runSteps_succ hu] at h
    rw [Nat.add_right_comm, runSteps_succ hu, ih h]

/-- The first step of a run of any machine of the host's interface. -/
theorem coreRun_succ {C : Host.Core} {s t : C.State} (h : C.step s = .next t) (k : Nat) :
    C.run (k + 1) s = C.run k t := by
  simp only [Host.Core.run, h]

/-- `runSteps` is the run of the host's interface. -/
theorem runSteps_eq_core (k : Nat) (s : State) : runSteps k s = Host.Core.run Sys2Proof.core k s := by
  induction k generalizing s with
  | zero => rfl
  | succ k ih =>
    obtain ⟨t, ht⟩ := step_total s
    rw [runSteps_succ ht, ih t]
    exact (coreRun_succ (C := Sys2Proof.core) ht k).symm

end Sys2Proof.Machine
end

