-- ==== Sys2Proof/Laws/Window.lean ====
section
/-! SUPPORT. What a host access can do, said once. -/

namespace Sys2Proof.Machine

@[simp] theorem accessPerformed_word (o : BitVec 12) :
    accessPerformed .word o = (o.toNat % 4 == 0) := by
  simp [accessPerformed]

/-- An access of another width is not performed (R63). -/
theorem accessPerformed_narrow {width : AccessWidth} (h : width ≠ .word) (o : BitVec 12) :
    accessPerformed width o = false := by
  cases width <;> first | rfl | exact absurd rfl h

/-- An access that is performed is well-formed in the syntax, and conversely (R63). -/
theorem accessPerformed_eq_wf (width : AccessWidth) (o : BitVec 12) (v : Word) :
    accessPerformed width o = (Event.write width o v).wf := rfl

/-- A write that is not performed changes nothing (R63). -/
theorem hostWrite_unperformed {width : AccessWidth} {o : BitVec 12}
    (h : accessPerformed width o = false) (w : Word) (s : State) : hostWrite width o w s = s := by
  simp [hostWrite, h]

/-- A write while BUSY to another register than CTRL and STATUS is dropped (R42). -/
theorem hostWrite_dropped {width : AccessWidth} {o : BitVec 12} {s : State}
    (h : accessPerformed width o = true) (hb : s.busy = true)
    (hr : writableWhileBusy (regAt o) = false) (w : Word) : hostWrite width o w s = dropWrite s := by
  simp [hostWrite, h, hb, hr]

/-- A performed write to a register that is not dropped. -/
theorem hostWrite_reg {width : AccessWidth} {o : BitVec 12} {r : Reg} {s : State}
    (h : accessPerformed width o = true) (hr : regAt o = some r)
    (hb : s.busy = false ∨ writableWhileBusy (some r) = true) (w : Word) :
    hostWrite width o w s = writeReg s r w := by
  unfold hostWrite
  rw [h, hr]
  obtain hb | hb := hb <;> simp [hb]

/-- A write to a reserved offset while IDLE changes nothing (R40). -/
theorem hostWrite_reserved {width : AccessWidth} {o : BitVec 12} {s : State}
    (hr : regAt o = none) (hb : s.busy = false) (w : Word) : hostWrite width o w s = s := by
  simp [hostWrite, hr, hb]

/-- Everything a host write can do. -/
theorem hostWrite_cases (width : AccessWidth) (o : BitVec 12) (w : Word) (s : State) :
    hostWrite width o w s = s ∨
      (accessPerformed width o = true ∧ s.busy = true ∧ writableWhileBusy (regAt o) = false ∧
        hostWrite width o w s = dropWrite s) ∨
      ∃ r, accessPerformed width o = true ∧ regAt o = some r ∧
        (s.busy = true → writableWhileBusy (some r) = true) ∧
        hostWrite width o w s = writeReg s r w := by
  unfold hostWrite
  split
  · next h =>
    split
    · next hb =>
      simp only [Bool.and_eq_true, Bool.not_eq_true'] at hb
      exact .inr (.inl ⟨h, hb.1, hb.2, rfl⟩)
    · next hb =>
      split
      · next r hr =>
        refine .inr (.inr ⟨r, h, hr, fun hbusy => ?_, rfl⟩)
        simpa [hbusy, hr] using hb
      · exact .inl rfl
  · exact .inl rfl

/-- The value of a performed read of a register. -/
theorem hostReadValue_reg {width : AccessWidth} {o : BitVec 12} {r : Reg} (s : State)
    (h : accessPerformed width o = true) (hr : regAt o = some r) :
    hostReadValue width o s = readReg s r := by
  simp [hostReadValue, h, hr]

/-- Every offset that holds a register is a multiple of 4. -/
theorem regAt_aligned {o : BitVec 12} {r : Reg} (h : regAt o = some r) : o.toNat % 4 = 0 := by
  unfold regAt at h
  by_contra hne
  simp [hne] at h

/-- A performed write to a register at its offset. -/
theorem hostWrite_at {o : BitVec 12} {r : Reg} {s : State} (hr : regAt o = some r)
    (hb : s.busy = false ∨ writableWhileBusy (some r) = true) (w : Word) :
    hostWrite .word o w s = writeReg s r w :=
  hostWrite_reg (by simp [regAt_aligned hr]) hr hb w

/-- A performed read of a register at its offset. -/
theorem hostReadValue_at {o : BitVec 12} {r : Reg} (s : State) (hr : regAt o = some r) :
    hostReadValue .word o s = readReg s r :=
  hostReadValue_reg s (by simp [regAt_aligned hr]) hr

end Sys2Proof.Machine
end

