-- ==== Sys2Proof/Tests/Slice0.lean ====
section
/-! SUPPORT. Small tests with values from the spec's own vectors (95_test_vectors.md; a comment names the
vector), and for every statement with hypotheses a concrete state that meets them. -/

namespace Sys2Proof.Tests

open Sys2Proof Sys2Proof.Machine

set_option maxRecDepth 20000

/-! ### Small states -/

/-- A matrix register with the given rows in its top left and 0 elsewhere. -/
def regOfRows (rows : List (List Nat)) : MatReg :=
  Vector.ofFn fun i => Vector.ofFn fun j => BitVec.ofNat 16 ((rows.getD i.val []).getD j.val 0)

/-- A vector register with the given first entries and 0 elsewhere. -/
def vecOf (l : List Nat) : Vector Entry 16 := Vector.ofFn fun j => BitVec.ofNat 16 (l.getD j.val 0)

/-- The reset state with OPA and OPB. -/
def scalars (a b : Word) : State := { State.reset with opa := a, opb := b }

/-- The reset state with MOD, DIM and MAT0. -/
def keyed (M N : Nat) (rows : List (List Nat)) : State :=
  { State.reset with
    modulus := BitVec.ofNat 9 M
    dim := BitVec.ofNat 5 N
    mat0 := regOfRows rows }

/-- A state with an input region in BUF and a destination. -/
def withInput (src dst : Nat) (bytes : List Nat) (s : State) : State :=
  { s with
    src := BitVec.ofNat 16 src
    dst := BitVec.ofNat 16 dst
    len := BitVec.ofNat 17 bytes.length
    buf := cellsFrom src (bytes.map fun b => BitVec.ofNat 8 b) }

/-- The key K2 of the spec's vectors. -/
def k2 : List (List Nat) := [[3, 3], [2, 5]]

/-- The key K3 of the spec's vectors. -/
def k3 : List (List Nat) := [[1, 2, 3], [0, 1, 4], [5, 6, 0]]

/-- The singular key S3 of the spec's vectors. -/
def s3 : List (List Nat) := [[2, 0, 0], [0, 1, 0], [0, 0, 1]]

/-- The answer is a next state with this property. -/
def nextSat (o : Out) (p : State → Bool) : Bool :=
  match o with
  | .next t => p t
  | .fault _ => false
  | .refused _ => false

theorem exists_of_nextSat {o : Out} {p : State → Bool} (h : nextSat o p = true) :
    ∃ t, o = .next t ∧ p t = true := by
  cases o with
  | next t => exact ⟨t, rfl, h⟩
  | fault f => cases f
  | refused r => cases r; contradiction

/-- One step runs the command word and leaves a state with this property. -/
def ran (w : Nat) (s : State) (p : State → Bool) : Bool := nextSat (step (s.withFetchWord 32 w)) p

/-- STATUS has this value and RES that value. -/
def stRes (st res : Word) (t : State) : Bool := statusWord t == st && t.res == res

/-- The output of a codec command: STATUS, the bytes at DST, and RES. -/
def output (st : Word) (bytes : List Nat) (p : Nat) (t : State) : Bool :=
  statusWord t == st && t.outlen.toNat == bytes.length && t.res.toNat == p &&
    memRead t t.dst.toNat bytes.length == bytes.map fun b => BitVec.ofNat 8 b

/-- The top-left entries of a matrix register. -/
def rowsOf (t : State) (m : MatSel) (n : Nat) : List (List Nat) := tab n (t.entry m)

/-! ### Well-formedness refuses ill-formed terms -/

theorem test_wf_byte_access : (Event.read .byte 0x008).wf = false := by decide
theorem test_wf_half_access : (Event.write .half 0x010 26).wf = false := by decide
theorem test_wf_misaligned_access : (Event.write .word 0x011 26).wf = false := by decide
theorem test_wf_aligned_access : (Event.write .word 0x010 26).wf = true := by decide
theorem test_wf_matrix_row_short : (HostOp.loadMat .m0 2 [[1, 2], [3]]).wf = false := by decide
theorem test_wf_matrix_row_missing : (HostOp.loadMat .m0 2 [[1, 2]]).wf = false := by decide
theorem test_wf_matrix_too_large :
    (HostOp.loadMat .m0 17 (List.replicate 17 (List.replicate 17 0))).wf = false := by decide
theorem test_wf_vector_length : (HostOp.loadVec 3 [1, 2]).wf = false := by decide
theorem test_wf_vector_too_large : (HostOp.loadVec 17 (List.replicate 17 0)).wf = false := by decide

/-! ### Decoding: words written out from the format of R80 and the opcodes of R83 -/

theorem test_decode_nop : decode 0b0000000000000000000000_0_0_00000000#32 = .ok .nop := by decide
theorem test_decode_gcd : decode 0b0000000000000000000000_0_0_00000001#32 = .ok .gcd := by decide
theorem test_decode_modinv : decode 0b0000000000000000000000_0_0_00000010#32 = .ok .modinv := by decide
theorem test_decode_det : decode 0b0000000000000000000000_0_1_00000011#32 = .ok (.det .m1) := by decide
theorem test_decode_adj : decode 0b0000000000000000000000_1_0_00000100#32 = .ok (.adj .m1 .m0) := by decide
theorem test_decode_inv : decode 0b0000000000000000000000_0_1_00000101#32 = .ok (.inv .m0 .m1) := by decide
theorem test_decode_matvec : decode 0b0000000000000000000000_0_1_00000110#32 = .ok (.matvec .m1) := by
  decide
theorem test_decode_pad : decode 0b0000000000000000000000_0_0_00000111#32 = .ok .pad := by decide
theorem test_decode_unpad : decode 0b0000000000000000000000_0_0_00001000#32 = .ok .unpad := by decide
theorem test_decode_enc : decode 0b0000000000000000000000_0_0_00001001#32 = .ok (.enc .m0) := by decide
theorem test_decode_dec : decode 0b0000000000000000000000_0_1_00001010#32 = .ok (.dec .m1) := by decide
theorem test_decode_reserved : decode 0x00000400 = .error .reservedBits := by decide
theorem test_decode_unused_selector : decode 0x00000203 = .error .unusedSelector := by decide
theorem test_decode_unassigned : decode 0x0000000B = .error .unassignedOpcode := by decide
theorem test_decode_lanes : decodeBytes [0x05, 0x02, 0x00, 0x00] = .ok (.inv .m1 .m0, []) := by decide
theorem test_decode_short : decodeBytes [0x05, 0x02] = .error .truncated := by decide
theorem test_decode_table_word : decodeTableWord 32 0x105 = some (.inv .m0 .m1) := by decide

/-! ### One step of every command -/

/-- V-NOP-1. -/
theorem test_nop : ran 0x000 State.reset (stRes 0x2 0) = true := by decide
/-- V-NOP-2. -/
theorem test_nop_with_selector : ran 0x100 State.reset (stRes 0x506 0) = true := by decide
/-- V-GCD-2. -/
theorem test_gcd_zero_left : ran 0x001 (scalars 0 7) (stRes 0x2 7) = true := by decide
/-- V-GCD-9. -/
theorem test_gcd_wide : ran 0x001 (scalars 0x80000000 0x40000000) (stRes 0x2 0x40000000) = true := by
  decide
/-- V-MI-8. -/
theorem test_modinv_wide : ran 0x002 (scalars 7 0x80000000) (stRes 0x2 0x36DB6DB7) = true := by decide
/-- V-MI-11. -/
theorem test_modinv_common_factor :
    ran 0x002 (scalars 0x12345677 0xFFFFFFFF) (stRes 0x106 0) = true := by decide
/-- V-DET-6. -/
theorem test_det_negative : ran 0x003 (keyed 26 2 [[1, 2], [3, 4]]) (stRes 0x2 24) = true := by decide
/-- V-DET-14. -/
theorem test_det_entry_equal_modulus :
    ran 0x003 (keyed 26 2 [[26, 0], [0, 1]]) (stRes 0x706 0) = true := by decide
/-- V-ADJ-4. -/
theorem test_adj : ran 0x204 (keyed 256 3 k3) (fun t =>
    rowsOf t .m1 3 == [[232, 18, 5], [20, 241, 252], [251, 4, 1]]) = true := by decide
/-- V-ADJ-9. -/
theorem test_adj_in_place : ran 0x004 (keyed 26 2 k2) (fun t =>
    rowsOf t .m0 3 == [[5, 23, 0], [24, 3, 0], [0, 0, 0]]) = true := by decide
/-- V-INV-11, with RES from R127: det = 15 * 9 - 17 * 20 = -205 = 3 modulo 26 (log 15). -/
theorem test_inv_of_inverse :
    ran 0x105 { keyed 26 2 [] with mat1 := regOfRows [[15, 17], [20, 9]] } (fun t =>
      rowsOf t .m0 2 == [[3, 3], [2, 5]] && stRes 0x2 3 t) = true := by decide
/-- V-INV-7. -/
theorem test_inv_singular : ran 0x205 (keyed 26 2 [[1, 2], [3, 4]]) (stRes 0x106 0) = true := by decide
/-- V-MV-6. -/
theorem test_matvec_largest :
    ran 0x006 { keyed 256 16 (List.replicate 16 (List.replicate 16 255)) with
      vin := vecOf (List.replicate 16 255) } (fun t =>
        t.vout == vecOf (List.replicate 16 16) && statusWord t == 0x2) = true := by decide
/-- V-MV-8. -/
theorem test_matvec_vector_range :
    ran 0x006 { keyed 26 2 k2 with vin := vecOf [7, 26] } (fun t =>
      t.vout == vecOf [] && statusWord t == 0x706) = true := by decide
/-- V-PAD-1, with MOD = 0. -/
theorem test_pad : ran 0x007 (withInput 0 0x100 [65, 66, 67, 68, 69] (keyed 0 3 []))
    (output 0x2 [65, 66, 67, 68, 69, 1] 1) = true := by decide
/-- V-PAD-8. -/
theorem test_pad_overlap : ran 0x007 (withInput 0 2 [65, 66, 67, 68, 69] (keyed 256 3 []))
    (stRes 0x806 0) = true := by decide
/-- V-UP-7, with DIM = 0. -/
theorem test_unpad : ran 0x008 (withInput 0 0x100 [9, 9, 9, 9, 7, 2] (keyed 256 0 []))
    (output 0x2 [9, 9, 9, 9] 2) = true := by decide
/-- V-UP-3. -/
theorem test_unpad_corrupt : ran 0x008 (withInput 0 0x100 [1, 2, 9] (keyed 256 3 []))
    (stRes 0x406 0) = true := by decide
/-- V-ENC-7. -/
theorem test_enc : ran 0x009 (withInput 0 0x100 [7, 2, 3] (keyed 26 2 k2))
    (output 0x2 [1, 24, 12, 11] 1) = true := by decide
/-- V-ENC-10. -/
theorem test_enc_pad_byte_range :
    ran 0x009 (withInput 0 0x100 [1, 0, 1, 1] (keyed 2 3 [[1, 1, 0], [0, 1, 1], [0, 0, 1]]))
      (stRes 0x706 0) = true := by decide
/-- V-DEC-8. -/
theorem test_dec : ran 0x00A (withInput 0x100 0x200 [1, 24, 12, 11] (keyed 26 2 k2))
    (output 0x2 [7, 2, 3] 1) = true := by decide
/-- V-DEC-7. -/
theorem test_dec_invertible_before_aligned :
    ran 0x00A (withInput 0x100 0x200 [1, 2, 3, 4, 5] (keyed 256 3 s3)) (stRes 0x106 0) = true := by decide

/-! ### The host interface -/

/-- Program P3: CLRSTAT clears DONE and ERR and keeps ERRCODE. -/
theorem test_clear_status :
    statusWord (hostWrite .word 0x008 0xE
      { State.reset with done := true, err := true, errcode := 1 }) = 0x100 := by decide
/-- R42: a write to MOD while BUSY is dropped. -/
theorem test_busy_write : hostWrite .word 0x010 26 { State.reset with engine := .busy 0 } =
    { State.reset with engine := .busy 0, ovr := true } := by decide
/-- R63: a byte write while BUSY does not even set OVR. -/
theorem test_narrow_busy_write : hostWrite .byte 0x010 26 { State.reset with engine := .busy 0 } =
    { State.reset with engine := .busy 0 } := by decide
/-- R35: BUF_ADDR wraps after address 65535. -/
theorem test_port_wraps : (hostWrite .word 0x038 0x1AA { State.reset with bufAddr := 0xFFFF }).bufAddr = 0 ∧
    (hostWrite .word 0x038 0x1AA { State.reset with bufAddr := 0xFFFF }).buf = [(0xFFFF, 0xAA)] := by decide
/-- Program P1: the expansion of LOADMAT writes rows 64 bytes apart. -/
theorem test_load_matrix : expandOp (.loadMat .m1 2 [[2, 0], [0, 1]]) =
    [.write .word 0x800 2, .write .word 0x804 0, .write .word 0x840 0, .write .word 0x844 1] := by decide
/-- Program P4: IRQ rises at the completion of NOP if IE is 1. -/
theorem test_irq : ran 0x000 { State.reset with ie := true } State.irq = true := by decide

/-! ### Witnesses: concrete states that meet the hypotheses of the statements -/

theorem test_witness_DecodeAgreesWithEncode : (Instr.adj .m1 .m0).wf = true := by decide

theorem test_witness_DecodeFollowsMatchAndMask :
    ∃ r ∈ opcodeTable, (0x305 : Word) &&& r.mask = r.pattern ∧ decode 0x305 = .ok (.inv .m1 .m1) := by
  decide

/-- Every case of R84 at the ends of its range. -/
theorem test_witness_IllegalWords :
    illegalWord 0x0000000B ∧ illegalWord 0x000000FF ∧ illegalWord 0x00000400 ∧ illegalWord 0x80000000 ∧
      illegalWord 0x00000100 ∧ illegalWord 0x00000108 ∧ illegalWord 0x00000200 ∧
      illegalWord 0x0000020A := by
  refine ⟨?_, ?_, ?_, ?_, ?_, ?_, ?_, ?_⟩ <;> (unfold illegalWord; decide)

/-- An illegal word that is about to complete. -/
theorem test_witness_IllegalWordCompletes :
    let s := { State.reset with engine := .busy 0, cmd := 0x0000000B }
    s.engine = .busy 0 ∧ illegalWord s.cmd := by
  unfold illegalWord
  decide

theorem test_witness_StepPerformsNextEvent :
    let s := { State.reset with agenda := [.wait], done := true }
    s.resetInput = false ∧ s.agenda = .wait :: [] ∧ s.done = true ∧
      { s with done := false }.done = false := by decide

theorem test_witness_StepRunsDecodedCommand :
    let s := { State.reset with engine := .busy 0, cmd := 0x00000105 }
    (Instr.inv .m0 .m1).wf = true ∧ s.resetInput = false ∧ s.engine = .busy 0 ∧
      decode s.cmd = .ok (.inv .m0 .m1) ∧ s.agenda = [] ∧ { s with agenda := [.engine] }.agenda = .engine :: [] ∧
      decodeTableWord 32 0x105 = some (.inv .m0 .m1) := by decide

theorem test_witness_CommandWriteIsAccepted :
    State.reset.busy = false ∧ { State.reset with engine := .busy 3 }.busy = true ∧
      { State.reset with engine := .busy 0, cmd := 0x400 }.engine = .busy 0 ∧
      decode 0x400 = .error .reservedBits := by decide

theorem test_witness_WaitEndsAtCompletion :
    let s := { State.reset with engine := .busy 2, agenda := [.wait] }
    s.resetInput = false ∧ s.engine = .busy 2 ∧ s.done = false ∧ s.agenda = .wait :: [] := by decide

/-- A state in the engine's last step that meets the invariant and steps. -/
theorem test_witness_StepKeepsInvariant :
    let s := { State.reset with engine := .busy 0, cmd := 0x00000009 }
    s.Inv ∧ ∃ t, step s = .next t :=
  ⟨{ bufWf := by decide
     busyClear := by decide
     errHasCode := by decide
     codeProduced := by decide
     voutResidue := by decide
     outlenFits := by decide
     heldInReset := by decide }, step_total _⟩

/-- A state with the reset input asserted meets the invariant too. -/
theorem test_witness_StepKeepsInvariant_in_reset :
    { State.reset with resetInput := true, agenda := [.write .word 0x00C 1] }.Inv :=
  { bufWf := by decide
    busyClear := by decide
    errHasCode := by decide
    codeProduced := by decide
    voutResidue := by decide
    outlenFits := by decide
    heldInReset := by decide }

/-- OPB at 0, 1, 2 and its largest value. -/
theorem test_witness_ModinvLeavesUniqueInverse :
    (scalars 5 0).opb.toNat < 2 ∧ (scalars 5 1).opb.toNat < 2 ∧
      (2 ≤ (scalars 2 2).opb.toNat ∧ Nat.gcd ((scalars 2 2).opa.toNat % (scalars 2 2).opb.toNat)
        (scalars 2 2).opb.toNat ≠ 1) ∧
      (2 ≤ (scalars 1 2).opb.toNat ∧ Nat.gcd ((scalars 1 2).opa.toNat % (scalars 1 2).opb.toNat)
        (scalars 1 2).opb.toNat = 1) ∧
      Nat.gcd ((scalars 2 0xFFFFFFFF).opa.toNat % (scalars 2 0xFFFFFFFF).opb.toNat)
        (scalars 2 0xFFFFFFFF).opb.toNat = 1 := by decide

/-- DET, ADJ, INV, MATVEC, ENC, DEC: the configuration at both ends of its range and just outside. -/
theorem test_witness_config :
    ConfigOk (keyed 2 1 []) ∧ ConfigOk (keyed 256 16 []) ∧ ¬ConfigOk (keyed 1 1 []) ∧
      ¬ConfigOk (keyed 257 16 []) ∧ ¬ConfigOk (keyed 2 0 []) ∧ ¬ConfigOk (keyed 256 17 []) := by decide

/-- DET, ADJ, INV, MATVEC, ENC, DEC: entries just below and at the modulus. -/
theorem test_witness_matrix :
    MatrixOk (keyed 26 2 [[25, 0], [0, 25]]) .m0 ∧ ¬MatrixOk (keyed 26 2 [[26, 0], [0, 1]]) .m0 ∧
      ConfigOk (keyed 26 2 [[26, 0], [0, 1]]) := by decide

/-- INV and DEC: an invertible and a singular key. -/
theorem test_witness_invertible :
    (ConfigOk (keyed 26 2 k2) ∧ MatrixOk (keyed 26 2 k2) .m0 ∧
      Nat.gcd (detMod (keyed 26 2 k2) .m0) (keyed 26 2 k2).M = 1) ∧
    (ConfigOk (keyed 256 3 s3) ∧ MatrixOk (keyed 256 3 s3) .m0 ∧
      Nat.gcd (detMod (keyed 256 3 s3) .m0) (keyed 256 3 s3).M ≠ 1) := by
  rw [detMod_eq, detMod_eq]
  decide

/-- A successful INV, and a matrix of residues B with (A B) mod M = I. -/
theorem test_witness_InvGivesModularInverse :
    let s := keyed 26 2 k2
    let B := fun i j => ([[15, 17], [20, 9]].getD i []).getD j 0
    (∃ t, exec (.inv .m1 .m0) s = .next t ∧ (t.errcode == 0) = true) ∧
      (∀ i < s.N, ∀ k < s.N, B i k < s.M) ∧
      ∀ i < s.N, ∀ k < s.N,
        (∑ j ∈ Finset.range s.N, s.entry .m0 i j * B j k) % s.M = if i = k then 1 else 0 :=
  ⟨exists_of_nextSat (by decide), by decide, by decide⟩

theorem test_witness_InvTwiceGivesBackTheKey :
    ∃ t, exec (.inv .m0 .m0) (keyed 26 2 k2) = .next t ∧ (t.errcode == 0) = true :=
  exists_of_nextSat (by decide)

theorem test_witness_MatvecLeavesProduct :
    let s := { keyed 26 2 k2 with vin := vecOf [25, 25, 26] }
    (ConfigOk s ∧ MatrixOk s .m0 ∧ VectorOk s) ∧ ¬VectorOk { s with vin := vecOf [7, 26] } := by decide

theorem test_witness_MatvecWithInverse :
    let s := { keyed 26 2 k2 with vin := vecOf [7, 2] }
    MatSel.m1 ≠ .m0 ∧ ConfigOk s ∧ MatrixOk s .m0 ∧ VectorOk s ∧ Nat.gcd (detMod s .m0) s.M = 1 := by
  dsimp only
  rw [detMod_eq]
  decide

/-- PAD: DIM at 0, 1, 16 and 17, and regions that end at the last byte, overlap by one, or run over. -/
theorem test_witness_PadAppendsPadding :
    ¬(1 ≤ (keyed 0 0 []).N ∧ (keyed 0 0 []).N ≤ 16) ∧ ¬(1 ≤ (keyed 0 17 []).N ∧ (keyed 0 17 []).N ≤ 16) ∧
      (1 ≤ (keyed 0 1 []).N ∧ (keyed 0 16 []).N ≤ 16) ∧
      RegionsOk (withInput 0 5 [65, 66, 67, 68, 69] (keyed 0 3 [])) 6 ∧
      RegionsOk (withInput 0 65530 [65, 66, 67, 68, 69] (keyed 0 3 [])) 6 ∧
      ¬RegionsOk (withInput 0 65531 [65, 66, 67, 68, 69] (keyed 0 3 [])) 6 ∧
      ¬RegionsOk (withInput 0 4 [65, 66, 67, 68, 69] (keyed 0 3 [])) 6 ∧
      padding (withInput 0 5 [65, 66, 67, 68, 69] (keyed 0 3 [])) = 1 := by decide

/-- UNPAD: a last byte equal to the length, one more, and empty input. -/
theorem test_witness_UnpadStripsPadding :
    let s := withInput 0 0x100 [1, 2, 3] State.reset
    let u := withInput 0 0x100 [1, 2, 4] State.reset
    (RegionsOk s 3 ∧ lastInput s ≤ s.len.toNat) ∧ (RegionsOk u 3 ∧ u.len.toNat < lastInput u) ∧
      lastInput State.reset ≤ State.reset.len.toNat ∧
      ¬RegionsOk (withInput 0 2 [1, 2, 3] State.reset) 3 := by decide

/-- ENC: each of its clauses. -/
theorem test_witness_EncTransformsEveryBlock :
    let s := withInput 0 0x100 [7, 2, 25] (keyed 26 2 k2)
    let u := withInput 0 0x100 [7, 2, 26] (keyed 26 2 k2)
    (ConfigOk s ∧ RegionsOk s (s.len.toNat + padding s) ∧ MatrixOk s .m0 ∧
      ∀ k < s.len.toNat + padding s, paddedByte s (padding s) k < s.M) ∧
    (ConfigOk u ∧ RegionsOk u (u.len.toNat + padding u) ∧
      ¬∀ k < u.len.toNat + padding u, paddedByte u (padding u) k < u.M) ∧
    ¬RegionsOk { s with dst := 2 } (s.len.toNat + padding s) := by decide

/-- DEC: an aligned input and an input of odd length, with an invertible and with a singular key. -/
theorem test_witness_DecTransformsAndUnpads :
    let s := withInput 0x100 0x200 [1, 24] (keyed 26 2 k2)
    let u := withInput 0x100 0x200 [1, 24, 25] (keyed 26 2 k2)
    (ConfigOk s ∧ RegionsOk s 2 ∧ MatrixOk s .m0 ∧
      (∀ k < s.len.toNat, (s.bufByte (s.src.toNat + k)).toNat < s.M) ∧
      Nat.gcd (detMod s .m0) s.M = 1 ∧ s.len.toNat % s.N = 0) ∧
    (ConfigOk u ∧ RegionsOk u 3 ∧ MatrixOk u .m0 ∧
      (∀ k < u.len.toNat, (u.bufByte (u.src.toNat + k)).toNat < u.M) ∧
      Nat.gcd (detMod u .m0) u.M = 1 ∧ u.len.toNat % u.N ≠ 0) ∧
    ¬∀ k < u.len.toNat, ({ u with modulus := 25 }.bufByte (u.src.toNat + k)).toNat < 25 := by
  dsimp only
  rw [detMod_eq, detMod_eq]
  decide

/-- DEC: the last byte p of the plaintext is the whole length (V-DEC-5), and more than it (V-DEC-9). -/
theorem test_witness_DecPadding :
    let s := withInput 0x100 0x200 [1, 24] (keyed 26 2 k2)
    let u := withInput 0x100 0x200 [1, 24, 5, 5] (keyed 26 2 k2)
    (IsDetInverse s .m0 3 ∧ lastPlain s .m0 3 ≤ s.len.toNat) ∧
      (IsDetInverse u .m0 3 ∧ u.len.toNat < lastPlain u .m0 3) := by
  dsimp only
  have hs := lastPlain_eq (s := withInput 0x100 0x200 [1, 24] (keyed 26 2 k2)) .m0
    (by decide) (by decide) (by decide) (by decide)
  have hu := lastPlain_eq (s := withInput 0x100 0x200 [1, 24, 5, 5] (keyed 26 2 k2)) .m0
    (by decide) (by decide) (by decide) (by decide)
  rw [show invMod (keyDet (withInput 0x100 0x200 [1, 24] (keyed 26 2 k2)) .m0)
    (withInput 0x100 0x200 [1, 24] (keyed 26 2 k2)).M = 3 by decide] at hs
  rw [show invMod (keyDet (withInput 0x100 0x200 [1, 24, 5, 5] (keyed 26 2 k2)) .m0)
    (withInput 0x100 0x200 [1, 24, 5, 5] (keyed 26 2 k2)).M = 3 by decide] at hu
  rw [hs, hu, IsDetInverse, IsDetInverse, detMod_eq, detMod_eq]
  decide

/-- The three cases of DecUndoesEnc: odd length; aligned data that ends in 2 of 4; aligned data that ends
in more than its length (V-ENC-3 and V-DEC-2). -/
theorem test_witness_DecUndoesEnc :
    ∀ c ∈ [([7, 2, 3], 26, 2, k2), ([1, 2, 3, 2], 26, 2, k2), ([65, 66, 67], 256, 3, k3)],
      let s := withInput 0 0x100 c.1 (keyed c.2.1 c.2.2.1 c.2.2.2)
      keyDet s .m0 = detMod s .m0 ∧ Nat.gcd (keyDet s .m0) s.M = 1 ∧
        ∃ t, exec (.enc .m0) s = .next t ∧
          (t.errcode == 0 && decide (RegionsOk { t with src := t.dst, dst := 0x200, len := t.outlen }
            t.outlen.toNat)) = true := by
  intro c hc
  refine ⟨(detMod_eq _ _).symm, ?_, exists_of_nextSat ?_⟩ <;> revert c <;> decide

/-- The three cases of DecUndoesEnc tell apart. -/
theorem test_witness_DecUndoesEnc_cases :
    let s := withInput 0 0x100 [7, 2, 3] (keyed 26 2 k2)
    let u := withInput 0 0x100 [1, 2, 3, 2] (keyed 26 2 k2)
    let v := withInput 0 0x100 [65, 66, 67] (keyed 256 3 k3)
    s.len.toNat % s.N ≠ 0 ∧
      (u.len.toNat % u.N = 0 ∧ 0 < u.len.toNat ∧ 0 < lastInput u ∧ lastInput u ≤ u.len.toNat) ∧
      (v.len.toNat % v.N = 0 ∧ v.len.toNat < lastInput v) := by decide

theorem test_witness_ErrorChangesOnlyStatus :
    let s := { State.reset with engine := .busy 0, cmd := 0x00000002 }
    (∃ t, exec .modinv s = .next t ∧ (t.errcode != 0) = true) ∧
      s.engine = .busy 0 ∧ ∃ t, engineStep s = .next t ∧ (t.errcode != 0) = true :=
  ⟨exists_of_nextSat (by decide), rfl, exists_of_nextSat (by decide)⟩

/-- A codec command that succeeds, with a byte before and a byte after its output, and an entry of VOUT
and of a matrix outside the dimension. -/
theorem test_witness_CommandFrame :
    let s := withInput 0 0x100 [65, 66, 67, 68, 69] (keyed 256 3 k3)
    (∃ t, exec (.enc .m0) s = .next t ∧
      (t.errcode == 0 && decide (s.dst.toNat + t.outlen.toNat ≤ 0x106)) = true) ∧
      0xFF < s.dst.toNat ∧ s.N ≤ (3 : Fin 16).val ∧ writesMat (.adj .m1 .m0) ≠ some .m0 ∧
      writesRes .nop = false ∧ writesBuf (.det .m0) = false ∧ writesVout .gcd = false := by
  dsimp only
  exact ⟨exists_of_nextSat (by decide), by decide⟩

/-- Two states that differ outside the top-left N x N agree on the operands of MATVEC. -/
theorem test_witness_CommandDependsOnlyOnItsOperands :
    let s := keyed 26 2 k2
    let s' := { keyed 26 2 [[3, 3, 9], [2, 5]] with vin := vecOf [0, 0, 7], opa := 1 }
    sameOperands (.matvec .m0) s s' ∧ s ≠ s' ∧ (∃ t, exec (.matvec .m0) s = .next t ∧
      (t.errcode == 0) = true) ∧ ∃ t, exec (.matvec .m0) s' = .next t ∧ (t.errcode == 0) = true := by
  dsimp only
  refine ⟨?_, by decide, exists_of_nextSat (by decide), exists_of_nextSat (by decide)⟩
  unfold sameOperands sameKey
  decide

theorem test_witness_NothingChangesUnderARunningCommand :
    let s := { State.reset with engine := .busy 1, agenda := [.write .word 0x010 26] }
    s.busy = true ∧ ∃ t, step s = .next t ∧ t.busy = true := by
  dsimp only
  exact ⟨by decide, exists_of_nextSat (by decide)⟩

/-- A byte of BUF that a step changes: by the port, and by ENC. -/
theorem test_witness_BufChanges :
    let s := { withInput 0 0x100 [1, 2] (keyed 256 3 k3) with agenda := [.write .word 0x038 0xAA] }
    let u := { withInput 0 1 [9] (keyed 256 1 [[7]]) with
      engine := .busy 0, cmd := 0x00000009, buf := [(0, 9), (1, 0)] }
    (∃ t, step s = .next t ∧ (t.bufByte 0 != s.bufByte 0) = true) ∧
      ∃ t, step u = .next t ∧ (t.bufByte 1 != u.bufByte 1) = true := by
  dsimp only
  exact ⟨exists_of_nextSat (by decide), exists_of_nextSat (by decide)⟩

/-- Steps in which DONE, ERR and OVR rise, and OVR falls. -/
theorem test_witness_FlagsRise :
    let s := { State.reset with engine := .busy 0, cmd := 0x00000002 }
    let u := { s with agenda := [.write .word 0x010 26] }
    let v := { State.reset with ovr := true, agenda := [.write .word 0x008 8] }
    (s.done = false ∧ s.err = false ∧ ∃ t, step s = .next t ∧ (t.done && t.err) = true) ∧
      (u.ovr = false ∧ ∃ t, step u = .next t ∧ t.ovr = true) ∧
      v.ovr = true ∧ ∃ t, step v = .next t ∧ (!t.ovr) = true := by
  dsimp only
  exact ⟨⟨rfl, rfl, exists_of_nextSat (by decide)⟩, ⟨rfl, exists_of_nextSat (by decide)⟩, rfl,
    exists_of_nextSat (by decide)⟩

/-- Steps in which BUSY rises and DONE and ERR fall (acceptance), BUSY falls (soft reset), and ERRCODE
changes (hard reset). -/
theorem test_witness_FlagsFall :
    let s := { State.reset with
      done := true, err := true, errcode := 1, agenda := [.write .word 0x00C 0] }
    let u := { State.reset with engine := .busy 0, agenda := [.write .word 0x004 2] }
    let v := { State.reset with errcode := 1, agenda := [.resetInput true] }
    (s.busy = false ∧ s.done = true ∧ s.err = true ∧
      ∃ t, step s = .next t ∧ (t.busy && !t.done && !t.err) = true) ∧
      (u.busy = true ∧ ∃ t, step u = .next t ∧ (!t.busy) = true) ∧
      ∃ t, step v = .next t ∧ (t.errcode != v.errcode) = true := by
  dsimp only
  exact ⟨⟨rfl, rfl, rfl, exists_of_nextSat (by decide)⟩, ⟨rfl, exists_of_nextSat (by decide)⟩,
    exists_of_nextSat (by decide)⟩

/-- CommandCompletesAfterLatency, CTRL, soft reset and IRQ: values with SRST = 0 and SRST = 1
(as DONE in a write to STATUS). -/
theorem test_witness_CtrlValues :
    (0x00000001 : Word).getLsbD 1 = false ∧ (0x00000003 : Word).getLsbD 1 = true ∧
      State.reset.busy = false ∧ State.reset.resetInput = false ∧
      { State.reset with engine := .busy 0, cmd := 0x0000000B }.engine = .busy 0 := by decide

/-- R200: a command word written while the reset input is asserted is not accepted. -/
theorem test_write_in_reset :
    nextSat (step { State.reset with resetInput := true, agenda := [.write .word 0x00C 1] }) (fun t =>
      !t.busy && t.cmd == 0 && t.resetInput) = true := by decide

/-- R200: a command in its last engine step is abandoned when the reset input is asserted. -/
theorem test_reset_abandons :
    nextSat (step { scalars 12 18 with engine := .busy 0, cmd := 1, agenda := [.resetInput true] })
      (fun t => !t.busy && !t.done && t.res == 0 && t.opa == 0) = true := by decide

/-- HardReset: the input asserted while BUSY, a read while it is asserted, and its release. -/
theorem test_witness_HardReset :
    let s := { State.reset with engine := .busy 2, agenda := [.resetInput true] }
    let u := { State.reset with resetInput := true, agenda := [.read .word 0x010] }
    let v := { State.reset with resetInput := true, agenda := [.resetInput false] }
    hardResetNow s ∧ (hardResetNow u ∧ u.agenda = Event.read .word 0x010 :: [] ∧
      (0x010 : BitVec 12) ≠ 0x038) ∧ hardResetNow v ∧ v.agenda = Event.resetInput false :: [] :=
  ⟨.inr ⟨[], rfl⟩, ⟨.inl rfl, rfl, by decide⟩, .inl rfl, rfl⟩

/-- BusyWriteIsDropped: CTRL, STATUS, a register and the last offset, while BUSY. -/
theorem test_witness_BusyWriteIsDropped :
    { State.reset with engine := .busy 3 }.busy = true ∧ (0x004 : BitVec 12).toNat % 4 = 0 ∧
      (0x008 : BitVec 12).toNat % 4 = 0 ∧ (0x000 : BitVec 12).toNat % 4 = 0 ∧
      (0xFFC : BitVec 12).toNat % 4 = 0 ∧ (0xFFC : BitVec 12) ≠ 0x004 ∧ (0xFFC : BitVec 12) ≠ 0x008 := by
  decide

theorem test_witness_BusyReadsShowTheOldState :
    let s := { State.reset with engine := .busy 3 }
    (s.Inv ∧ s.busy = true) ∧ State.reset.resetInput = false ∧ 0 < Config.lat 0x00000001 State.reset :=
  ⟨⟨{ bufWf := by decide
      busyClear := by decide
      errHasCode := by decide
      codeProduced := by decide
      voutResidue := by decide
      outlenFits := by decide
      heldInReset := by decide }, by decide⟩, rfl, Nat.succ_pos _⟩

theorem test_witness_BufDataPort :
    State.reset.busy = false ∧ { State.reset with engine := .busy 0 }.busy = true := by decide

theorem test_witness_UnalignedOrNarrowAccess :
    AccessWidth.byte ≠ .word ∧ AccessWidth.half ≠ .word ∧ (0x001 : BitVec 12).toNat % 4 ≠ 0 ∧
      (0xFFF : BitVec 12).toNat % 4 ≠ 0 := by decide

/-- The reserved offsets at both ends of each range, and the offsets next to them that hold a register. -/
theorem test_witness_ReservedOffsets :
    (reservedOffset 0x03C ∧ reservedOffset 0x0FC ∧ reservedOffset 0x140 ∧ reservedOffset 0x1FC ∧
      reservedOffset 0x240 ∧ reservedOffset 0x3FC ∧ reservedOffset 0xC00 ∧ reservedOffset 0xFFC) ∧
      ¬reservedOffset 0x038 ∧ ¬reservedOffset 0x100 ∧ ¬reservedOffset 0x13C ∧ ¬reservedOffset 0x200 ∧
      ¬reservedOffset 0x23C ∧ ¬reservedOffset 0x400 ∧ ¬reservedOffset 0xBFC := by
  refine ⟨⟨?_, ?_, ?_, ?_, ?_, ?_, ?_, ?_⟩, ?_, ?_, ?_, ?_, ?_, ?_, ?_⟩ <;>
    (unfold reservedOffset; decide)

theorem test_witness_RegisterMap :
    regAt 0x7FC = some (.mat .m0 15 15) ∧ regOffset (.mat .m0 15 15) = 0x7FC ∧
      regAt 0x800 = some (.mat .m1 0 0) := by decide

theorem test_witness_WrittenRegisterReadsBack :
    State.reset.busy = false ∧ writeMask (.mat .m1 15 15) = some 0x0000FFFF ∧
      Reg.bufData ≠ .mat .m1 15 15 := by decide

/-- A range that wraps past the last address of BUF. -/
theorem test_witness_BufWriteThenBufRead :
    let s := { State.reset with
      agenda := expandOp (.bufWrite 0xFFFF [1, 2]) ++ expandOp (.bufRead 0xFFFF 2) ++ [Event.wait] }
    s.resetInput = false ∧ s.busy = false ∧ [(1 : Byte), 2].length ≤ 65536 ∧
      s.agenda = expandOp (.bufWrite 0xFFFF [1, 2]) ++ expandOp (.bufRead 0xFFFF 2) ++ [Event.wait] :=
  ⟨rfl, by decide, by decide, rfl⟩

end Sys2Proof.Tests
end

section
/-! The register map (R36 to R40): offset and register determine each other. -/

namespace Sys2Proof.Machine

/-! ### Offsets -/

theorem regOffset_vin_toNat (j : Fin 16) : (regOffset (.vin j)).toNat = 0x100 + 4 * j.val := by
  rw [regOffset, BitVec.toNat_ofNat, Nat.mod_eq_of_lt (by omega)]

theorem regOffset_vout_toNat (i : Fin 16) : (regOffset (.vout i)).toNat = 0x200 + 4 * i.val := by
  rw [regOffset, BitVec.toNat_ofNat, Nat.mod_eq_of_lt (by omega)]

theorem regOffset_mat0_toNat (i j : Fin 16) :
    (regOffset (.mat .m0 i j)).toNat = 0x400 + 4 * (16 * i.val + j.val) := by
  rw [regOffset, BitVec.toNat_ofNat, Nat.mod_eq_of_lt (by omega)]

theorem regOffset_mat1_toNat (i j : Fin 16) :
    (regOffset (.mat .m1 i j)).toNat = 0x800 + 4 * (16 * i.val + j.val) := by
  rw [regOffset, BitVec.toNat_ofNat, Nat.mod_eq_of_lt (by omega)]

/-! ### The four tables of entries -/

theorem regAt_vin {o : BitVec 12} {j : Fin 16} (h : o.toNat = 0x100 + 4 * j.val) :
    regAt o = some (.vin j) := by
  have hj : Fin.ofNat 16 ((0x100 + 4 * j.val) / 4) = j := Fin.ext (by simp [Fin.ofNat]; omega)
  simp (disch := omega) only [regAt, h, hj, if_neg, if_pos]

theorem regAt_vout {o : BitVec 12} {i : Fin 16} (h : o.toNat = 0x200 + 4 * i.val) :
    regAt o = some (.vout i) := by
  have hi : Fin.ofNat 16 ((0x200 + 4 * i.val) / 4) = i := Fin.ext (by simp [Fin.ofNat]; omega)
  simp (disch := omega) only [regAt, h, hi, if_neg, if_pos]

theorem regAt_mat0 {o : BitVec 12} {i j : Fin 16} (h : o.toNat = 0x400 + 4 * (16 * i.val + j.val)) :
    regAt o = some (.mat .m0 i j) := by
  have hi : Fin.ofNat 16 ((0x400 + 4 * (16 * i.val + j.val)) / 64) = i :=
    Fin.ext (by simp [Fin.ofNat]; omega)
  have hj : Fin.ofNat 16 ((0x400 + 4 * (16 * i.val + j.val)) / 4) = j :=
    Fin.ext (by simp [Fin.ofNat]; omega)
  simp (disch := omega) only [regAt, h, hi, hj, if_neg, if_pos]

theorem regAt_mat1 {o : BitVec 12} {i j : Fin 16} (h : o.toNat = 0x800 + 4 * (16 * i.val + j.val)) :
    regAt o = some (.mat .m1 i j) := by
  have hi : Fin.ofNat 16 ((0x800 + 4 * (16 * i.val + j.val)) / 64) = i :=
    Fin.ext (by simp [Fin.ofNat]; omega)
  have hj : Fin.ofNat 16 ((0x800 + 4 * (16 * i.val + j.val)) / 4) = j :=
    Fin.ext (by simp [Fin.ofNat]; omega)
  simp (disch := omega) only [regAt, h, hi, hj, if_neg, if_pos]

/-! ### Offset and register determine each other -/

/-- The offset of a register selects that register (R39). -/
@[simp] theorem regAt_regOffset (r : Reg) : regAt (regOffset r) = some r := by
  cases r with
  | vin j => exact regAt_vin (regOffset_vin_toNat j)
  | vout i => exact regAt_vout (regOffset_vout_toNat i)
  | mat m i j =>
    cases m
    · exact regAt_mat0 (regOffset_mat0_toNat i j)
    · exact regAt_mat1 (regOffset_mat1_toNat i j)
  | _ => rfl

/-- The fifteen first offsets all hold a register, whose offset they are. -/
theorem scalar_offset : ∀ k : Fin 15,
    (regAt (BitVec.ofNat 12 (4 * k.val))).map regOffset = some (BitVec.ofNat 12 (4 * k.val)) := by
  decide

/-- An aligned offset is reserved or the offset of a register (R39). -/
theorem reserved_or_regOffset {o : BitVec 12} (ha : o.toNat % 4 = 0) :
    reservedOffset o ∨ ∃ r, o = regOffset r := by
  have hlt := o.isLt
  have table : ∀ r, o.toNat = (regOffset r).toNat → reservedOffset o ∨ ∃ r, o = regOffset r :=
    fun r h => .inr ⟨r, BitVec.eq_of_toNat_eq h⟩
  by_cases h1 : o.toNat < 0x03C
  · have ho : BitVec.ofNat 12 (4 * (o.toNat / 4)) = o := BitVec.eq_of_toNat_eq (by simp; omega)
    obtain ⟨r, -, hr⟩ := Option.map_eq_some_iff.1 (scalar_offset ⟨o.toNat / 4, by omega⟩)
    exact .inr ⟨r, ho ▸ hr.symm⟩
  by_cases h2 : 0x100 ≤ o.toNat ∧ o.toNat < 0x140
  · exact table (.vin ⟨(o.toNat - 0x100) / 4, by omega⟩) (by rw [regOffset_vin_toNat]; dsimp; omega)
  by_cases h3 : 0x200 ≤ o.toNat ∧ o.toNat < 0x240
  · exact table (.vout ⟨(o.toNat - 0x200) / 4, by omega⟩) (by rw [regOffset_vout_toNat]; dsimp; omega)
  by_cases h4 : 0x400 ≤ o.toNat ∧ o.toNat < 0x800
  · exact table (.mat .m0 ⟨(o.toNat - 0x400) / 64, by omega⟩ ⟨o.toNat / 4 % 16, by omega⟩)
      (by rw [regOffset_mat0_toNat]; dsimp; omega)
  by_cases h5 : 0x800 ≤ o.toNat ∧ o.toNat < 0xC00
  · exact table (.mat .m1 ⟨(o.toNat - 0x800) / 64, by omega⟩ ⟨o.toNat / 4 % 16, by omega⟩)
      (by rw [regOffset_mat1_toNat]; dsimp; omega)
  left
  unfold reservedOffset
  dsimp only
  omega

/-- A reserved offset selects no register (R40). -/
theorem regAt_reserved {o : BitVec 12} (h : reservedOffset o) : regAt o = none := by
  unfold reservedOffset at h
  dsimp only at h
  by_cases ha : o.toNat % 4 = 0
  · simp (disch := omega) only [regAt, if_neg]
  · simp (disch := omega) only [regAt, if_pos]

/-- The aligned offsets without a register are the reserved ranges (R39, R40). -/
theorem regAt_eq_none_iff {o : BitVec 12} (ha : o.toNat % 4 = 0) :
    regAt o = none ↔ reservedOffset o := by
  refine ⟨fun h => (reserved_or_regOffset ha).resolve_right ?_, regAt_reserved⟩
  rintro ⟨r, rfl⟩
  simp at h

/-- Offset and register determine each other (R39). -/
theorem regAt_eq_some_iff (o : BitVec 12) (r : Reg) : regAt o = some r ↔ o = regOffset r := by
  refine ⟨fun h => ?_, fun h => h ▸ regAt_regOffset r⟩
  obtain hres | ⟨r', rfl⟩ := reserved_or_regOffset (regAt_aligned h)
  · rw [regAt_reserved hres] at h
    cases h
  · rw [regAt_regOffset] at h
    rw [Option.some.inj h]

theorem regOffset_injective : Function.Injective regOffset := fun r r' h =>
  Option.some.inj (regAt_regOffset r ▸ (regAt_eq_some_iff _ r').2 h)

/-- Settles O48: `regAt` and `regOffset` are inverse to each other. -/
theorem registerMapIsExact : Obligations.RegisterMapIsExact :=
  ⟨regAt_eq_some_iff, rfl, fun r => regAt_aligned (regAt_regOffset r),
    fun _ ha => regAt_eq_none_iff ha,
    fun j => ⟨regOffset_vin_toNat j, regOffset_vout_toNat j⟩,
    fun i j => ⟨regOffset_mat0_toNat i j, regOffset_mat1_toNat i j⟩⟩

end Sys2Proof.Machine
end

section
/-! Host accesses to a register, and what they read and write (R22 to R43). -/

namespace Sys2Proof.Machine

/-! ### Reads -/

/-- A read at the offset of a register returns what the register reads as. -/
@[simp] theorem hostReadValue_regOffset (s : State) (r : Reg) :
    hostReadValue .word (regOffset r) s = readReg s r :=
  hostReadValue_at s (regAt_regOffset r)

theorem hostReadValue_none {o : BitVec 12} (h : regAt o = none) (s : State) :
    hostReadValue .word o s = 0 := by
  simp [hostReadValue, h]

theorem ctrlWord_eq (s : State) : ctrlWord s = if s.ie then 1 else 0 := by
  unfold ctrlWord
  cases s.ie <;> rfl

/-- Settles O43: each offset of the map holds its register. -/
theorem readsReturnTheHeldFields : Obligations.ReadsReturnTheHeldFields := by
  intro s
  have read := hostReadValue_regOffset s
  exact ⟨read .id, (read .ctrl).trans (ctrlWord_eq s), read .status, read .cmd, read .mod,
    read .dim, read .opa, read .opb, read .res, read .src, read .dst, read .len, read .outlen,
    read .bufAddr, read .bufData, fun k => ⟨read (.vin k), read (.vout k)⟩,
    fun i j => ⟨read (.mat .m0 i j), read (.mat .m1 i j)⟩⟩

/-- The flags are bits 0 to 3 of STATUS (R24). -/
theorem statusWord_flags (s : State) :
    (statusWord s).getLsbD 0 = s.busy ∧ (statusWord s).getLsbD 1 = s.done ∧
      (statusWord s).getLsbD 2 = s.err ∧ (statusWord s).getLsbD 3 = s.ovr := by
  simp only [statusWord, BitVec.getLsbD_append]
  simp

/-- ERRCODE is bits 11 to 8 of STATUS, and the bits on both sides of it are 0 (R24, R40). -/
theorem statusWord_errcode (s : State) :
    (statusWord s).extractLsb' 4 4 = 0 ∧ (statusWord s).extractLsb' 8 4 = s.errcode ∧
      (statusWord s).extractLsb' 12 20 = 0 := by
  refine ⟨BitVec.eq_of_getLsbD_eq fun i hi => ?_, BitVec.eq_of_getLsbD_eq fun i hi => ?_,
    BitVec.eq_of_getLsbD_eq fun i hi => ?_⟩
  all_goals
    simp only [BitVec.getLsbD_extractLsb', statusWord, BitVec.getLsbD_append]
    interval_cases i <;> simp

/-- Settles O36. -/
theorem statusReadsItsFields : Obligations.StatusReadsItsFields := by
  intro s
  have read : hostReadValue .word 0x008 s = statusWord s := hostReadValue_regOffset s .status
  obtain ⟨hbusy, hdone, herr, hovr⟩ := statusWord_flags s
  dsimp only
  rw [read]
  exact ⟨hbusy, hdone, herr, hovr, statusWord_errcode s⟩

/-- Settles O41: the fields of `State.reset` through the map. -/
theorem resetValuesOfRegisters : Obligations.ResetValuesOfRegisters := by
  have read := hostReadValue_regOffset State.reset
  refine ⟨rfl, rfl, read .id, read .ctrl, read .status, read .cmd, read .mod, read .dim, read .opa,
    read .opb, read .res, read .src, read .dst, read .len, read .outlen, read .bufAddr,
    fun k => ⟨?_, ?_, fun m j => ?_⟩⟩
  · simp [readReg]
  · simp [readReg]
  · cases m <;> simp [readReg, State.mat]

/-! ### Writes -/

/-- A write at the offset of a register, if it is not dropped. -/
theorem hostWrite_regOffset {r : Reg} {s : State}
    (hb : s.busy = false ∨ writableWhileBusy (some r) = true) (w : Word) :
    hostWrite .word (regOffset r) w s = writeReg s r w :=
  hostWrite_at (regAt_regOffset r) hb w

theorem writableWhileBusy_iff (r : Reg) :
    writableWhileBusy (some r) = true ↔ r = .ctrl ∨ r = .status := by
  cases r <;> simp [writableWhileBusy]

/-- An aligned write while BUSY to another offset than those of CTRL and STATUS is dropped (R42). -/
theorem hostWrite_busy {o : BitVec 12} {s : State} (ha : o.toNat % 4 = 0) (hb : s.busy = true)
    (hc : o ≠ 0x004) (hs : o ≠ 0x008) (w : Word) : hostWrite .word o w s = dropWrite s := by
  refine hostWrite_dropped (by simp [ha]) hb ?_ w
  rcases hr : regAt o with _ | r
  · rfl
  · rw [Bool.eq_false_iff, ne_eq, writableWhileBusy_iff]
    rintro (rfl | rfl)
    · exact hc ((regAt_eq_some_iff o _).1 hr)
    · exact hs ((regAt_eq_some_iff o _).1 hr)

/-- A write that changes nothing while IDLE and is dropped while BUSY (R40, R42). -/
theorem hostWrite_ignored {o : BitVec 12} {w : Word} {s : State} (ha : o.toNat % 4 = 0)
    (hc : o ≠ 0x004) (hs : o ≠ 0x008) (hi : s.busy = false → hostWrite .word o w s = s) :
    hostWrite .word o w s = { s with ovr := s.ovr || s.busy } := by
  rcases hb : s.busy with _ | _
  · rw [hi hb, Bool.or_false]
  · rw [hostWrite_busy ha hb hc hs, dropWrite, Bool.or_true]

/-- A write to a register that keeps no bit of it only sets OVR while BUSY (R40, R42). -/
theorem hostWrite_readOnly {r : Reg} (hr : ∀ s w, writeReg s r w = s) (hc : r ≠ .ctrl)
    (hs : r ≠ .status) (s : State) (w : Word) :
    hostWrite .word (regOffset r) w s = { s with ovr := s.ovr || s.busy } :=
  hostWrite_ignored (regAt_aligned (regAt_regOffset r)) (regOffset_injective.ne hc)
    (regOffset_injective.ne hs) fun hb => (hostWrite_regOffset (.inl hb) w).trans (hr s w)

/-- A write to CTRL is performed in every state (R23, R42). -/
theorem hostWrite_ctrl (s : State) (w : Word) : hostWrite .word 0x004 w s =
    if w.getLsbD 1 then s.afterSoftReset else { s with ie := w.getLsbD 0 } :=
  hostWrite_regOffset (r := .ctrl) (.inr rfl) w

theorem clearStatus_eq (s : State) (w : Word) : clearStatus w s =
    { s with
      done := if w.getLsbD 1 then false else s.done
      err := if w.getLsbD 2 then false else s.err
      ovr := if w.getLsbD 3 then false else s.ovr } := by
  unfold clearStatus
  cases w.getLsbD 1 <;> cases w.getLsbD 2 <;> cases w.getLsbD 3 <;> simp

/-- Settles O37: a write to STATUS is performed in every state. -/
theorem statusWriteClearsOnes : Obligations.StatusWriteClearsOnes := by
  intro s w
  exact (hostWrite_regOffset (r := .status) (.inr rfl) w).trans (clearStatus_eq s w)

/-- Settles O38: CTRL takes a write in every state. -/
theorem ctrlHoldsInterruptEnable : Obligations.CtrlHoldsInterruptEnable := by
  have read : ∀ s, hostReadValue .word 0x004 s = if s.ie then 1 else 0 := fun s =>
    (hostReadValue_regOffset s .ctrl).trans (ctrlWord_eq s)
  refine ⟨read State.reset, fun s w => ⟨read s, rfl, fun h => ?_, fun h => ?_⟩⟩
  · rw [hostWrite_ctrl, h]
    rfl
  · rw [hostWrite_ctrl, h, if_pos rfl, read]
    exact ⟨rfl, rfl⟩

/-- Settles O42: by the offset, dropped or as when IDLE. -/
theorem busyWriteIsDropped : Obligations.BusyWriteIsDropped := by
  intro s o w hb ha
  refine ⟨fun hc hs => hostWrite_busy ha hb hc hs w, ?_, ?_⟩
  · rintro rfl
    exact hostWrite_ctrl s w
  · rintro rfl
    exact statusWriteClearsOnes s w

/-- Settles O47: a reserved offset selects no register, and a read-only register drops the value. -/
theorem reservedAndReadOnlyIgnoreWrites : Obligations.ReservedAndReadOnlyIgnoreWrites := by
  intro s w
  refine ⟨hostReadValue_regOffset s .id, fun o ho ha => ?_, fun r hr => ?_⟩
  · have hnone : regAt o = none := regAt_reserved ho
    refine ⟨hostReadValue_none hnone s, hostWrite_ignored ha ?_ ?_ fun hb =>
      hostWrite_reserved hnone hb w⟩
    · rintro rfl
      cases hnone
    · rintro rfl
      cases hnone
  · obtain rfl | rfl | rfl | ⟨i, rfl⟩ := hr
    · exact hostWrite_readOnly (r := .id) (fun _ _ => rfl) nofun nofun s w
    · exact hostWrite_readOnly (r := .res) (fun _ _ => rfl) nofun nofun s w
    · exact hostWrite_readOnly (r := .outlen) (fun _ _ => rfl) nofun nofun s w
    · exact hostWrite_readOnly (r := .vout i) (fun _ _ => rfl) nofun nofun s w

/-! ### BUF_DATA and CMD -/

/-- A 32-bit read changes BUF_ADDR, only at BUF_DATA, and the host's record (R35, R65). -/
theorem hostRead_word (s : State) (o : BitVec 12) : hostRead .word o s =
    { s with
      bufAddr := if o = 0x038 then s.bufAddr + 1 else s.bufAddr
      reads := s.reads ++ [hostReadValue .word o s] } := by
  by_cases ho : o = 0x038
  · subst ho
    rfl
  · have hr : regAt o ≠ some .bufData := fun h => ho ((regAt_eq_some_iff o _).1 h)
    rw [if_neg ho]
    simp [hostRead, hostReadEffect, hr]

/-- Settles O45: the port reads and stores at BUF_ADDR (R35). -/
theorem bufDataPortReadsAndWrites : Obligations.BufDataPortReadsAndWrites := by
  intro s w
  refine ⟨?_, fun hb => hostWrite_busy rfl hb (by decide) (by decide) w, fun hb => ?_⟩
  · rw [hostRead_word, show hostReadValue .word 0x038 s = _ from hostReadValue_regOffset s .bufData]
    rfl
  · refine ⟨_, hostWrite_regOffset (r := .bufData) (.inl hb) w, rfl, ?_, fun x hx => ?_⟩
    · simp [writeReg, bufByte_memWrite]
      rfl
    · exact bufByte_memWrite_outside s (by simp; omega)

/-- Settles O7: CMD takes a write while IDLE only, and a word of no command raises the error. -/
theorem commandWriteIsAccepted : Obligations.CommandWriteIsAccepted := by
  refine ⟨fun w s hb => hostWrite_regOffset (r := .cmd) (.inl hb) w,
    fun w s hb => hostWrite_busy rfl hb (by decide) (by decide) w,
    fun s => hostReadValue_regOffset s .cmd, hostReadValue_regOffset State.reset .cmd,
    fun s he hd => ?_⟩
  rcases hw : decode s.cmd with e | i
  · rw [engineStep_last he, execWord_illegal hw]
    rfl
  · exact absurd ⟨i, hw⟩ hd

end Sys2Proof.Machine
end

section
/-! What a command writes and what it keeps (R47), and the run of the engine to its completion (R44). -/

namespace Sys2Proof.Machine

/-! ### What the commit of a command writes -/

/-- The commit of a command writes only RES, OUTLEN, VOUT, the matrix registers and BUF (R47). -/
theorem commitOf_frame (i : Instr) (s : State) : commitOf i s =
    { s with
      res := (commitOf i s).res, outlen := (commitOf i s).outlen, vout := (commitOf i s).vout
      mat0 := (commitOf i s).mat0, mat1 := (commitOf i s).mat1, buf := (commitOf i s).buf } := by
  cases i with
  | adj d _ | inv d _ => cases d <;> rfl
  | _ => rfl

theorem commitOf_res {i : Instr} (h : writesRes i = false) (s : State) :
    (commitOf i s).res = s.res := by
  cases i with
  | adj d _ => exact setMat_res s d _
  | nop | matvec _ => rfl
  | _ => cases h

theorem commitOf_outlen {i : Instr} (h : writesBuf i = false) (s : State) :
    (commitOf i s).outlen = s.outlen := by
  cases i with
  | adj d _ | inv d _ => exact setMat_outlen s d _
  | pad | unpad | enc _ | dec _ => cases h
  | _ => rfl

theorem commitOf_buf {i : Instr} (h : writesBuf i = false) (s : State) :
    (commitOf i s).buf = s.buf := by
  cases i with
  | adj d _ | inv d _ => exact setMat_buf s d _
  | pad | unpad | enc _ | dec _ => cases h
  | _ => rfl

theorem commitOf_vout {i : Instr} (h : writesVout i = false) (s : State) :
    (commitOf i s).vout = s.vout := by
  cases i with
  | adj d _ | inv d _ => exact setMat_vout s d _
  | matvec _ => cases h
  | _ => rfl

theorem commitOf_vout_written {i : Instr} (h : writesVout i = true) (s : State) :
    ∃ f, (commitOf i s).vout = withFirst s.vout s.N f := by
  cases i with
  | matvec m => exact ⟨fun k => (matVecMod s.M (keyRows s m) (vinList s)).getD k 0, rfl⟩
  | _ => cases h

/-- No command writes an entry of VOUT outside the dimension (R37). -/
theorem commitOf_vout_outside (i : Instr) (s : State) {k : Fin 16} (hk : s.N ≤ k.val) :
    (commitOf i s).vout[k] = s.vout[k] := by
  rcases h : writesVout i with _ | _
  · rw [commitOf_vout h]
  · obtain ⟨f, hf⟩ := commitOf_vout_written h s
    rw [hf, withFirst_get, if_neg (by omega)]

theorem commitOf_mat {i : Instr} {d : MatSel} (h : writesMat i ≠ some d) (s : State) :
    (commitOf i s).mat d = s.mat d := by
  cases i with
  | adj d' _ | inv d' _ =>
    refine (mat_setMat s d' d _).trans (if_neg ?_)
    rintro rfl
    exact h rfl
  | _ => cases d <;> rfl

theorem commitOf_mat_written {i : Instr} {d : MatSel} (h : writesMat i = some d) (s : State) :
    ∃ f, (commitOf i s).mat d = withTopLeft (s.mat d) s.N f := by
  cases i with
  | adj d' m | inv d' m =>
    cases h
    exact ⟨_, mat_setMat_same s d _⟩
  | _ => cases h

/-- No command writes an entry of a matrix register outside the dimension (R38). -/
theorem commitOf_mat_outside (i : Instr) (s : State) (d : MatSel) {a b : Fin 16}
    (h : s.N ≤ a.val ∨ s.N ≤ b.val) : ((commitOf i s).mat d)[a][b] = (s.mat d)[a][b] := by
  by_cases hw : writesMat i = some d
  · obtain ⟨f, hf⟩ := commitOf_mat_written hw s
    rw [hf, withTopLeft_get, if_neg (by omega)]
  · rw [commitOf_mat hw]

/-- PAD, UNPAD, ENC and DEC store their output at DST, inside BUF (R47, R141). -/
theorem commitOf_codec {i : Instr} {s : State} (hw : writesBuf i = true)
    (h : firstError (checksOf i s) = none) : ∃ (out : List Byte) (p : Nat),
      commitOf i s = commitCodec out p s ∧ s.dst.toNat + out.length ≤ 65536 := by
  rw [firstError_eq_none] at h
  cases i with
  | pad =>
    simp only [checksOf, List.forall_mem_cons, badRegions_eq_false] at h
    exact ⟨_, _, rfl, (paddedInput_length s).symm ▸ h.2.1.2.1⟩
  | unpad =>
    simp only [checksOf, List.forall_mem_cons, badRegions_eq_false] at h
    obtain ⟨⟨-, hdst, -⟩, -⟩ := h
    exact ⟨_, _, rfl, by simp; omega⟩
  | enc m =>
    simp only [checksOf, List.forall_mem_cons, badRegions_eq_false, badConfig_eq_false] at h
    obtain ⟨⟨-, -, hN, -⟩, ⟨-, hdst, -⟩, -⟩ := h
    exact ⟨_, _, rfl, by simpa [cipherBytes_eq m hN] using hdst⟩
  | dec m =>
    simp only [checksOf, List.forall_mem_cons, badRegions_eq_false] at h
    obtain ⟨-, ⟨-, hdst, -⟩, -⟩ := h
    have hlen := List.length_take_le (s.len.toNat - padByte (plainBytes s m)) (plainBytes s m)
    exact ⟨_, _, rfl, by omega⟩
  | _ => cases hw

/-- OUTLEN holds the length of an output that fits BUF (R33). -/
theorem commitCodec_outlen_toNat {out : List Byte} (h : out.length ≤ 65536) (p : Nat) (s : State) :
    (commitCodec out p s).outlen.toNat = out.length := by
  rw [commitCodec_outlen, BitVec.toNat_ofNat, Nat.mod_eq_of_lt (by omega)]

theorem commitOf_bufEpoch (i : Instr) (s : State) : (commitOf i s).bufEpoch = s.bufEpoch :=
  (congrArg State.bufEpoch (commitOf_frame i s) :)

theorem bufByte_congr {s t : State} (hb : t.buf = s.buf) (he : t.bufEpoch = s.bufEpoch) (x : Nat) :
    t.bufByte x = s.bufByte x := by
  rw [State.bufByte, State.bufByte, hb, he]

/-- BUF outside the output region after the commit of a command (R47, R60). -/
theorem commitOf_bufByte_outside {i : Instr} {s : State} (h : firstError (checksOf i s) = none)
    {x : Nat} (hx : writesBuf i = false ∨ x < s.dst.toNat ∨
      s.dst.toNat + (commitOf i s).outlen.toNat ≤ x) :
    (commitOf i s).bufByte x = s.bufByte x := by
  rcases hw : writesBuf i with _ | _
  · exact bufByte_congr (commitOf_buf hw s) (commitOf_bufEpoch i s) x
  · obtain ⟨out, p, he, hout⟩ := commitOf_codec hw h
    rw [he, commitCodec_outlen_toNat (by omega), hw] at hx
    rw [he, commitCodec_bufByte]
    exact bufByte_memWrite_outside s (hx.resolve_left nofun)

/-! ### What a command keeps -/

/-- A command writes only STATUS and what its commit writes, and leaves the engine IDLE (R44, R47). -/
theorem exec_frame {i : Instr} {s t : State} (h : exec i s = .next t) : t =
    { s with
      res := t.res, outlen := t.outlen, vout := t.vout, mat0 := t.mat0, mat1 := t.mat1, buf := t.buf
      err := t.err, errcode := t.errcode, done := true, engine := .idle } := by
  obtain ⟨e, -, rfl⟩ | ⟨-, rfl⟩ := exec_cases h
  · rfl
  · rw [commitOf_frame i s]
    rfl

/-- Settles O30: an error writes only STATUS, a success only what the commit writes. -/
theorem commandRegisterFrame : Obligations.CommandRegisterFrame := by
  intro i s t h
  refine ⟨by rw [exec_frame h]; simp, ?_⟩
  obtain ⟨e, -, rfl⟩ | ⟨-, rfl⟩ := exec_cases h
  · simp
  · simp only [completeOk_res, completeOk_outlen, completeOk_buf, completeOk_vout, completeOk_mat]
    exact ⟨(commitOf_res · s), fun hw => ⟨commitOf_outlen hw s, commitOf_buf hw s⟩,
      (commitOf_vout · s), fun _ => commitOf_vout_outside i s, fun _ hw => commitOf_mat hw s,
      fun d _ _ => commitOf_mat_outside i s d⟩

/-- Settles O31: an error writes no byte, a success only the output region of the codec commands. -/
theorem commandMemoryFrame : Obligations.CommandMemoryFrame := by
  intro i s t x h hx
  obtain ⟨e, -, rfl⟩ | ⟨hpass, rfl⟩ := exec_cases h
  · rfl
  · refine commitOf_bufByte_outside hpass (hx.imp_right fun hx => hx.resolve_left ?_)
    simp

/-! ### Engine steps up to the completion -/

/-- An event `engine` with the reset input released is an engine step. -/
theorem step_engine {s : State} {rest : List Event} (hr : s.resetInput = false)
    (ha : s.agenda = .engine :: rest) : step s = engineStep { s with agenda := rest } :=
  step_running hr ha

theorem runSteps_one (s : State) : runSteps 1 s = step s := by
  obtain ⟨t, ht⟩ := step_total s
  rw [ht, runSteps_succ ht, runSteps_zero]

/-- As many engine steps as the agenda begins with, none of them the completing one (R44). -/
theorem runSteps_busy {s : State} (hr : s.resetInput = false) (left : Nat) (rest : List Event)
    (k : Nat) :
    runSteps k { s with engine := .busy (left + k), agenda := List.replicate k .engine ++ rest } =
      .next { s with engine := .busy left, agenda := rest } := by
  induction k with
  | zero => rfl
  | succ k ih =>
    refine (runSteps_succ ?_ k).trans ih
    exact Eq.trans (step_engine hr rfl) (engineStep_wait rfl)

/-- The engine of an accepted word after fewer than LAT engine steps (R44, R220). -/
theorem runSteps_accept {s : State} (hr : s.resetInput = false) (w : Word) (rest : List Event)
    {k : Nat} (hk : k < Config.lat w s) :
    runSteps k { accept w s with agenda := List.replicate k .engine ++ rest } =
      .next { accept w s with engine := .busy (Config.lat w s - 1 - k), agenda := rest } := by
  have h := runSteps_busy (s := accept w s) hr (Config.lat w s - 1 - k) rest k
  rwa [Nat.sub_add_cancel (by omega)] at h

/-- Settles O8: LAT - 1 engine steps leave the completing one, which runs the word. -/
theorem commandCompletesAfterLatency : Obligations.CommandCompletesAfterLatency := by
  intro w s rest hr
  have hlat : 1 ≤ Config.lat w s := Nat.succ_pos _
  have agenda : ∀ k ≤ Config.lat w s, List.replicate (Config.lat w s) Event.engine ++ rest =
      List.replicate k .engine ++ (List.replicate (Config.lat w s - k) .engine ++ rest) :=
    fun k hk => by rw [← List.append_assoc, List.replicate_append_replicate, Nat.add_sub_cancel' hk]
  refine ⟨hlat, fun k hk => ?_, ?_⟩
  · rw [agenda k hk.le]
    exact ⟨_, runSteps_accept hr w _ hk, rfl⟩
  · obtain ⟨n, hn⟩ : ∃ n, Config.lat w s = n + 1 := ⟨_, rfl⟩
    have hwait := runSteps_accept (k := n) hr w (List.replicate 1 .engine ++ rest) (by omega)
    rw [hn, Nat.add_sub_cancel, Nat.sub_self] at hwait
    rw [agenda n (by omega), hn, Nat.add_sub_cancel_left, runSteps_add hwait, runSteps_one]
    exact Eq.trans (step_engine hr rfl) (engineStep_last rfl)

/-- Settles O6: the last engine step runs the word in CMD. -/
theorem stepRunsDecodedCommand : Obligations.StepRunsDecodedCommand := by
  intro s i rest _
  refine ⟨fun hr he hd => ⟨fun ha => ?_, fun ha => ?_⟩, fun nbits w hw => ?_⟩
  · rw [step_idle hr ha, engineStep_last he, execWord_ok hd]
  · rw [step_engine hr ha]
    exact Eq.trans (engineStep_last he) (execWord_ok hd _)
  · exact Eq.trans (step_engine rfl rfl)
      (Eq.trans (engineStep_last rfl) (execWord_ok (decodeTableWord_eq hw) _))

end Sys2Proof.Machine
end

section
/-! What one step can do, event by event, and what it does to the flags (R46). -/

namespace Sys2Proof.Machine

/-! ### The cases of a step -/

/-- What the step from one state to the next performs: while the reset input is asserted, or else one event,
on the state whose agenda no longer holds it. -/
inductive Performs (s t : State) : Prop
  | inReset (hr : s.resetInput = true) (level : Bool) (agenda : List Event) (reads : List Word)
      (ht : t = { State.reset with
        resetInput := level, bufEpoch := s.bufEpoch + 1, agenda := agenda, reads := reads })
  | engine (hr : s.resetInput = false) (rest : List Event)
      (ha : s.agenda = [] ∨ ∃ rest, s.agenda = .engine :: rest)
      (ht : engineStep { s with agenda := rest } = .next t)
  | write (hr : s.resetInput = false) (width : AccessWidth) (o : BitVec 12) (v : Word)
      (rest : List Event) (ha : s.agenda = .write width o v :: rest)
      (ht : t = hostWrite width o v { s with agenda := rest })
  | read (hr : s.resetInput = false) (width : AccessWidth) (o : BitVec 12) (rest : List Event)
      (ht : t = hostRead width o { s with agenda := rest })
  | wait (hr : s.resetInput = false) (rest : List Event) (ht : t = { s with agenda := rest })
  | assertReset (rest : List Event) (ha : s.agenda = .resetInput true :: rest)
      (ht : t = { hardReset s with resetInput := true, agenda := rest })
  | releaseReset (hr : s.resetInput = false) (rest : List Event) (ht : t = { s with agenda := rest })

theorem hostWait_eq (s : State) : ∃ agenda, hostWait s = { s with agenda := agenda } := by
  unfold hostWait
  split
  · exact ⟨s.agenda, rfl⟩
  · exact ⟨_, rfl⟩

/-- A step performs the next event (log 1, log 2). -/
theorem step_performs {s t : State} (h : step s = .next t) : Performs s t := by
  obtain ⟨hr, level, agenda, reads, ht⟩ | ⟨hr, ha, ht⟩ | ⟨hr, e, rest, ha, he⟩ := step_cases h
  · exact .inReset hr level agenda reads ht
  · exact .engine hr [] (.inl ha) (ha ▸ ht)
  · obtain ⟨w, o, v, rfl, ht⟩ | ⟨w, o, rfl, ht⟩ | ⟨rfl, ht⟩ | ⟨rfl, ht⟩ | ⟨level, rfl, ht⟩ :=
      performRunning_cases he
    · exact .write hr w o v rest ha ht
    · exact .read hr w o rest ht
    · obtain ⟨agenda, hw⟩ := hostWait_eq { s with agenda := rest }
      exact .wait hr agenda (ht.trans hw)
    · exact .engine hr rest (.inr ⟨rest, ha⟩) ht
    · cases level with
      | true => exact .assertReset rest ha ht
      | false => exact .releaseReset hr rest ht

/-! ### The flags -/

/-- The five fields of STATUS (R24). -/
structure Flags where
  busy : Bool
  done : Bool
  err : Bool
  ovr : Bool
  errcode : BitVec 4

/-- The fields of STATUS in a state. -/
def State.flags (s : State) : Flags := ⟨s.busy, s.done, s.err, s.ovr, s.errcode⟩

/-- The flags after a completion: without an error, or with a code that can be produced (R44, R46). -/
def CompletionFlags (s : State) (f : Flags) : Prop :=
  f = ⟨false, true, s.err, s.ovr, 0⟩ ∨
    ∃ c, c ≠ 0 ∧ errcodeProduced c = true ∧ f = ⟨false, true, true, s.ovr, c⟩

/-- How a step changes the flags, with the event that does it (R46). -/
inductive FlagChange (s t : State) : Prop
  | kept (ht : t.flags = s.flags)
  | reset (hs : resetNow s) (ht : t.flags = ⟨false, false, false, false, 0⟩)
  | accepted (hs : acceptsNow s) (ht : t.flags = ⟨true, false, false, s.ovr, 0⟩)
  | completed (hs : completesNow s t) (ht : CompletionFlags s t.flags)
  | cleared (v : Word) (rest : List Event) (hs : s.agenda = .write .word 0x008 v :: rest)
      (ht : t.flags = ⟨s.busy, s.done && !v.getLsbD 1, s.err && !v.getLsbD 2, s.ovr && !v.getLsbD 3,
        s.errcode⟩)
  | dropped (o : BitVec 12) (v : Word) (rest : List Event) (hs : s.agenda = .write .word o v :: rest)
      (hb : s.busy = true) (hctrl : o ≠ 0x004) (hstatus : o ≠ 0x008)
      (ht : t.flags = ⟨s.busy, s.done, s.err, true, s.errcode⟩)

theorem errcodeProduced_code (e : ErrorCode) : errcodeProduced e.code = true := by
  cases e <;> decide

theorem completionFlags_error (e : ErrorCode) (s : State) :
    CompletionFlags s (completeError e s).flags :=
  .inr ⟨e.code, code_ne_zero e, errcodeProduced_code e, rfl⟩

theorem completionFlags_exec {i : Instr} {s t : State} (h : exec i s = .next t) :
    CompletionFlags s t.flags := by
  obtain ⟨e, -, rfl⟩ | ⟨-, rfl⟩ := exec_cases h
  · exact completionFlags_error e s
  · left
    rw [commitOf_frame]
    rfl

/-- An engine step keeps the flags or completes a command (R44). -/
theorem engineStep_flags {s t : State} (h : engineStep s = .next t) :
    t.flags = s.flags ∨
      (s.engine = .busy 0 ∧ t.engine = .idle ∧ t.done = true ∧ CompletionFlags s t.flags) := by
  obtain ⟨-, rfl⟩ | ⟨k, he, rfl⟩ | ⟨he, i, -, h⟩ | ⟨he, -, rfl⟩ := engineStep_cases h
  · exact .inl rfl
  · left
    simp [State.flags, State.busy, he]
  · exact .inr ⟨he, congrArg State.engine (exec_frame h :), congrArg State.done (exec_frame h :),
      completionFlags_exec h⟩
  · exact .inr ⟨he, rfl, rfl, completionFlags_error _ s⟩

theorem accessPerformed_width {width : AccessWidth} {o : BitVec 12}
    (h : accessPerformed width o = true) : width = .word := by
  by_contra hw
  rw [accessPerformed_narrow hw] at h
  cases h

/-- A host write changes the flags by acceptance, by a soft reset, by a write of 1 to STATUS or by being
dropped (R42, R46). -/
theorem hostWrite_flagChange {s : State} {width : AccessWidth} {o : BitVec 12} {v : Word}
    {rest : List Event} (hr : s.resetInput = false) (ha : s.agenda = .write width o v :: rest) :
    FlagChange s (hostWrite width o v { s with agenda := rest }) := by
  obtain h | ⟨hp, hb, hw, h⟩ | ⟨r, hp, ho, hb, h⟩ := hostWrite_cases width o v { s with agenda := rest }
  · rw [h]
    exact .kept rfl
  · obtain rfl := accessPerformed_width hp
    rw [h]
    refine .dropped o v rest ha hb ?_ ?_ rfl
    · rintro rfl
      cases hw
    · rintro rfl
      cases hw
  · obtain rfl := accessPerformed_width hp
    obtain rfl := (regAt_eq_some_iff o r).1 ho
    rw [h]
    cases r with
    | ctrl =>
      rcases hv : v.getLsbD 1 with _ | _
      · exact .kept (by simp only [writeReg, writeCtrl, hv]; rfl)
      · exact .reset (.inr ⟨v, rest, ha, hv⟩) (by simp only [writeReg, writeCtrl, hv]; rfl)
    | status => exact .cleared v rest ha rfl
    | cmd => exact .accepted ⟨hr, Bool.eq_false_iff.2 fun hbusy => (nomatch hb hbusy), v, rest, ha⟩ rfl
    | mat m i j => cases m <;> exact .kept rfl
    | _ => exact .kept rfl

theorem hostRead_frame (width : AccessWidth) (o : BitVec 12) (s : State) : hostRead width o s =
    { s with bufAddr := (hostRead width o s).bufAddr, reads := (hostRead width o s).reads } := by
  unfold hostRead hostReadEffect
  split <;> rfl

/-- Every step changes the flags in one of the ways of R46. -/
theorem step_flagChange {s t : State} (h : step s = .next t) : FlagChange s t := by
  cases step_performs h with
  | inReset hr _ _ _ ht => exact .reset (.inl (.inl hr)) (ht ▸ rfl)
  | engine hr rest ha ht =>
    obtain hkept | ⟨he, hidle, hdone, hf⟩ := engineStep_flags ht
    · exact .kept hkept
    · exact .completed ⟨hr, he, ha, hidle, hdone⟩ hf
  | write hr width o v rest ha ht => exact ht ▸ hostWrite_flagChange hr ha
  | read hr width o rest ht =>
    rw [ht, hostRead_frame]
    exact .kept rfl
  | wait hr rest ht => exact .kept (ht ▸ rfl)
  | assertReset rest ha ht => exact .reset (.inl (.inr ⟨rest, ha⟩)) (ht ▸ rfl)
  | releaseReset hr rest ht => exact .kept (ht ▸ rfl)

/-- Settles O35: each kind of change of the flags names its event. -/
theorem flagsRiseOnlyByTheirEvents : Obligations.FlagsRiseOnlyByTheirEvents := by
  intro s t h
  cases step_flagChange h with
  | kept ht =>
    obtain ⟨hb, hd, he, ho, hc⟩ := (Flags.mk.injEq ..).mp ht
    simp +contextual [hb, hd, he, ho, hc]
  | reset hs ht =>
    obtain ⟨hb, hd, he, ho, hc⟩ := (Flags.mk.injEq ..).mp ht
    simp [hb, hd, he, ho, hs]
  | accepted hs ht =>
    obtain ⟨hb, hd, he, ho, hc⟩ := (Flags.mk.injEq ..).mp ht
    simp +contextual [hb, hd, he, ho, hs]
  | completed hs ht =>
    obtain ht | ⟨c, hc0, -, ht⟩ := ht
    · obtain ⟨hb, hd, he, ho, hc⟩ := (Flags.mk.injEq ..).mp ht
      simp +contextual [hb, hd, he, ho, hs]
    · obtain ⟨hb, hd, he, ho, hc⟩ := (Flags.mk.injEq ..).mp ht
      simpa +contextual [hb, hd, he, ho, hc, hs] using fun _ => hc0
  | cleared v rest hs ht =>
    obtain ⟨hb, hd, he, ho, hc⟩ := (Flags.mk.injEq ..).mp ht
    have hclear : ∀ bit, v.getLsbD bit = true → clearsNow s bit := fun bit hv => ⟨v, rest, hs, hv⟩
    simp +contextual [hb, hd, he, ho, hc, hclear]
  | dropped o v rest hs hbusy hctrl hstatus ht =>
    obtain ⟨hb, hd, he, ho, hc⟩ := (Flags.mk.injEq ..).mp ht
    have hwrite : ∃ o v rest, s.agenda = .write .word o v :: rest ∧ o ≠ 0x004 ∧ o ≠ 0x008 :=
      ⟨o, v, rest, hs, hctrl, hstatus⟩
    simp only [hb, hd, he, ho, hc, hbusy, hwrite]
    simp +contextual

end Sys2Proof.Machine
end

section
/-! The state under a running command (R41 to R44), and the invariant that every step keeps. -/

namespace Sys2Proof.Machine

/-! ### Under a running command -/

/-- An engine step that is not the completing one changes only the count of steps to come (R44). -/
theorem engineStep_busy_frame {s t : State} (h : engineStep s = .next t) (ht : t.busy = true) :
    t = { s with engine := t.engine } := by
  obtain ⟨-, rfl⟩ | ⟨k, -, rfl⟩ | ⟨-, i, -, h⟩ | ⟨-, -, rfl⟩ := engineStep_cases h
  · rfl
  · rfl
  · rw [exec_frame h] at ht
    cases ht
  · cases ht

/-- A host write while BUSY that does not reset the engine changes only IE and flags of STATUS (R42). -/
theorem hostWrite_busy_frame {width : AccessWidth} {o : BitVec 12} {v : Word} {s t : State}
    (h : t = hostWrite width o v s) (hs : s.busy = true) (ht : t.busy = true) :
    t = { s with ie := t.ie, done := t.done, err := t.err, ovr := t.ovr } := by
  obtain he | ⟨-, -, -, he⟩ | ⟨r, -, -, hw, he⟩ := hostWrite_cases width o v s
  · rw [h, he]
  · rw [h, he]
    rfl
  · rw [he] at h
    obtain rfl | rfl := (writableWhileBusy_iff r).1 (hw hs)
    · rcases hv : v.getLsbD 1 with _ | _
      · simp only [h, writeReg, writeCtrl, hv]
        rfl
      · simp only [h, writeReg, writeCtrl, hv] at ht
        cases ht
    · rw [h]
      rfl

/-- A step from a BUSY state to a BUSY state changes only CTRL, STATUS, BUF_ADDR, the count of engine steps
and the host's side (R41 to R44). -/
theorem step_busy_frame {s t : State} (h : step s = .next t) (hs : s.busy = true)
    (ht : t.busy = true) : t =
      { s with
        ie := t.ie, done := t.done, err := t.err, ovr := t.ovr, bufAddr := t.bufAddr
        engine := t.engine, agenda := t.agenda, reads := t.reads } := by
  cases step_performs h with
  | inReset _ _ _ _ he =>
    rw [he] at ht
    cases ht
  | engine _ rest _ he =>
    rw [engineStep_busy_frame he ht]
  | write _ width o v rest _ he =>
    rw [hostWrite_busy_frame he hs ht]
  | read _ width o rest he =>
    rw [he, hostRead_frame]
  | wait _ rest he => rw [he]
  | assertReset rest _ he =>
    rw [he] at ht
    cases ht
  | releaseReset _ rest he => rw [he]

/-- Settles O33: the frame of a step under a running command. -/
theorem nothingChangesUnderARunningCommand : Obligations.NothingChangesUnderARunningCommand := by
  intro s t h hs ht
  rw [step_busy_frame h hs ht]
  refine ⟨rfl, rfl, rfl, rfl, rfl, rfl, rfl, rfl, rfl, rfl, rfl, rfl, rfl, rfl, fun x => ?_⟩
  exact bufByte_congr rfl rfl x

/-! ### Reads while BUSY -/

/-- Acceptance and the engine steps after it change what STATUS and CMD read, and nothing else (R43). -/
theorem readReg_accept (w : Word) (s : State) (e : Engine) (agenda : List Event) {r : Reg}
    (hs : r ≠ .status) (hc : r ≠ .cmd) :
    readReg { accept w s with engine := e, agenda := agenda } r = readReg s r := by
  cases r with
  | status => exact absurd rfl hs
  | cmd => exact absurd rfl hc
  | mat m i j => cases m <;> rfl
  | _ => rfl

/-- STATUS while BUSY in a state that meets the invariant (R43). -/
theorem statusWord_busy {s : State} (hi : s.Inv) (hb : s.busy = true) :
    statusWord s = if s.ovr then 0x9 else 0x1 := by
  obtain ⟨hd, he, hc⟩ := hi.busyClear hb
  rw [statusWord, hb, hd, he, hc]
  cases s.ovr <;> rfl

/-- Settles O44: the engine steps below LAT change no register that a read shows, but CMD and STATUS. -/
theorem busyReadsShowTheOldState : Obligations.BusyReadsShowTheOldState := by
  refine ⟨fun s o => hostRead_word s o, fun s hi hb => ?_, fun w s rest k hr hk => ?_⟩
  · exact (hostReadValue_regOffset s .status).trans (statusWord_busy hi hb)
  · refine ⟨_, runSteps_accept hr w rest hk, rfl, rfl, hostReadValue_regOffset _ .cmd,
      fun r hs hc => ?_⟩
    rw [hostReadValue_regOffset, hostReadValue_regOffset, readReg_accept w s _ _ hs hc]

/-! ### The invariant -/

/-- The part of the invariant that speaks of STATUS (R24, R43, R172). -/
structure StatusWf (f : Flags) : Prop where
  busyClear : f.busy = true → f.done = false ∧ f.err = false ∧ f.errcode = 0
  errHasCode : f.err = true → f.errcode ≠ 0
  codeProduced : errcodeProduced f.errcode = true

/-- The part of the invariant that speaks of BUF, VOUT and OUTLEN (R33, R37, R60). -/
structure ResultsWf (buf : Memory) (vout : Vector Entry 16) (outlen : BitVec 17) : Prop where
  bufWf : buf.wf
  voutResidue : ∀ i : Fin 16, vout[i].toNat < 256
  outlenFits : outlen.toNat ≤ 65536

/-- The part of the invariant that speaks of an asserted reset input (R200). -/
def HeldInReset (s : State) : Prop := s.resetInput = true → s =
  { State.reset with
    resetInput := true, bufEpoch := s.bufEpoch, agenda := s.agenda, reads := s.reads }

theorem inv_iff (s : State) :
    s.Inv ↔ StatusWf s.flags ∧ ResultsWf s.buf s.vout s.outlen ∧ HeldInReset s :=
  ⟨fun h => ⟨⟨h.busyClear, h.errHasCode, h.codeProduced⟩, ⟨h.bufWf, h.voutResidue, h.outlenFits⟩,
      h.heldInReset⟩,
    fun ⟨hs, hr, hh⟩ => ⟨hr.bufWf, hs.busyClear, hs.errHasCode, hs.codeProduced, hr.voutResidue,
      hr.outlenFits, hh⟩⟩

theorem statusWf_reset : StatusWf ⟨false, false, false, false, 0⟩ := ⟨nofun, nofun, rfl⟩

theorem resultsWf_reset {buf : Memory} (h : buf.wf) :
    ResultsWf buf State.reset.vout State.reset.outlen :=
  ⟨h, fun i => by simp, by simp⟩

theorem memory_wf_nil : Memory.wf [] := ⟨.nil, nofun⟩

/-- Every change of the flags keeps STATUS well-formed: a completion without error finds ERR 0, since the
engine was BUSY (R43, R46). -/
theorem step_statusWf {s t : State} (hi : StatusWf s.flags) (h : step s = .next t) :
    StatusWf t.flags := by
  obtain ⟨hbusy, herr, hcode⟩ := hi
  cases step_flagChange h with
  | kept ht => exact ht ▸ ⟨hbusy, herr, hcode⟩
  | reset _ ht => exact ht ▸ statusWf_reset
  | accepted _ ht => exact ht ▸ ⟨fun _ => ⟨rfl, rfl, rfl⟩, nofun, rfl⟩
  | completed hs ht =>
    obtain ht | ⟨c, hc0, hc, ht⟩ := ht
    · obtain ⟨-, he, -⟩ := hs
      have hb : s.busy = true := by rw [State.busy, he]
      obtain ⟨-, herr0, -⟩ := hbusy hb
      exact ht ▸ ⟨nofun, fun h => absurd (herr0.symm.trans h) nofun, rfl⟩
    · exact ht ▸ ⟨nofun, fun _ => hc0, hc⟩
  | cleared v rest _ ht =>
    rw [ht]
    refine ⟨fun hb => ?_, fun he => herr (Bool.and_elim_left he), hcode⟩
    obtain ⟨hd, he, hc⟩ := hbusy hb
    exact ⟨by simp [show s.done = false from hd], by simp [show s.err = false from he], hc⟩
  | dropped _ _ _ _ _ _ _ ht => exact ht ▸ ⟨hbusy, herr, hcode⟩

/-- An entry of a product modulo M is a residue (R129). -/
theorem matVecMod_getD_lt {M : Nat} (hM : 0 < M) (A : List (List Nat)) (v : List Nat) (k : Nat) :
    (matVecMod M A v).getD k 0 < M := by
  rw [List.getD_eq_getElem?_getD]
  rcases h : (matVecMod M A v)[k]? with _ | x
  · exact hM
  · obtain ⟨row, -, rfl⟩ := List.mem_map.1 (List.mem_of_getElem? h)
    exact Nat.mod_lt _ hM

/-- What MATVEC writes to VOUT is below 256 (R37). -/
theorem withFirst_matVecMod_lt {old : Vector Entry 16} (hold : ∀ i : Fin 16, old[i].toNat < 256)
    {M : Nat} (hM0 : 0 < M) (hM : M ≤ 256) (N : Nat) (A : List (List Nat)) (v : List Nat) (i : Fin 16) :
    (withFirst old N fun k => (matVecMod M A v).getD k 0)[i].toNat < 256 := by
  rw [withFirst_get]
  split
  · have hlt := matVecMod_getD_lt hM0 A v i.val
    rw [BitVec.toNat_ofNat, Nat.mod_eq_of_lt (by omega)]
    omega
  · exact hold i

theorem commitOf_resultsWf {i : Instr} {s : State} (hi : ResultsWf s.buf s.vout s.outlen)
    (h : firstError (checksOf i s) = none) :
    ResultsWf (commitOf i s).buf (commitOf i s).vout (commitOf i s).outlen := by
  obtain ⟨hbuf, hvout, houtlen⟩ := hi
  rcases hb : writesBuf i with _ | _
  · rw [commitOf_buf hb, commitOf_outlen hb]
    refine ⟨hbuf, ?_, houtlen⟩
    cases i with
    | matvec m =>
      rw [firstError_eq_none] at h
      simp only [checksOf, List.forall_mem_cons, badConfig_eq_false] at h
      obtain ⟨⟨hM0, hM, -⟩, -⟩ := h
      exact withFirst_matVecMod_lt hvout (by omega) hM _ _ _
    | adj d _ | inv d _ => exact (setMat_vout s d _).symm ▸ hvout
    | _ => exact hvout
  · obtain ⟨out, p, he, hout⟩ := commitOf_codec hb h
    rw [he]
    exact ⟨store_wf hbuf hout, hvout, by rw [commitCodec_outlen_toNat] <;> omega⟩

theorem exec_resultsWf {i : Instr} {s t : State} (hi : ResultsWf s.buf s.vout s.outlen)
    (h : exec i s = .next t) : ResultsWf t.buf t.vout t.outlen := by
  obtain ⟨e, -, rfl⟩ | ⟨hpass, rfl⟩ := exec_cases h
  · exact hi
  · exact commitOf_resultsWf hi hpass

theorem engineStep_resultsWf {s t : State} (h : engineStep s = .next t)
    (hi : ResultsWf s.buf s.vout s.outlen) : ResultsWf t.buf t.vout t.outlen := by
  obtain ⟨-, rfl⟩ | ⟨k, -, rfl⟩ | ⟨-, i, -, h⟩ | ⟨-, -, rfl⟩ := engineStep_cases h
  · exact hi
  · exact hi
  · exact exec_resultsWf hi h
  · exact hi

/-- A write to a register writes at most a byte of BUF inside BUF, or resets VOUT and OUTLEN. -/
theorem writeReg_resultsWf {s : State} (hi : ResultsWf s.buf s.vout s.outlen) (r : Reg) (w : Word) :
    ResultsWf (writeReg s r w).buf (writeReg s r w).vout (writeReg s r w).outlen := by
  cases r with
  | ctrl =>
    simp only [writeReg, writeCtrl]
    split
    · exact resultsWf_reset hi.bufWf
    · exact hi
  | bufData =>
    exact ⟨store_wf hi.bufWf (Nat.succ_le_of_lt s.bufAddr.isLt), hi.voutResidue, hi.outlenFits⟩
  | mat m i j => cases m <;> exact hi
  | _ => exact hi

theorem hostWrite_resultsWf {s t : State} {width : AccessWidth} {o : BitVec 12} {w : Word}
    (h : t = hostWrite width o w s) (hi : ResultsWf s.buf s.vout s.outlen) :
    ResultsWf t.buf t.vout t.outlen := by
  obtain he | ⟨-, -, -, he⟩ | ⟨r, -, -, -, he⟩ := hostWrite_cases width o w s
  · exact h.trans he ▸ hi
  · exact h.trans he ▸ hi
  · exact h.trans he ▸ writeReg_resultsWf hi r w

theorem step_resultsWf {s t : State} (hi : ResultsWf s.buf s.vout s.outlen) (h : step s = .next t) :
    ResultsWf t.buf t.vout t.outlen := by
  cases step_performs h with
  | inReset _ _ _ _ ht => exact ht ▸ resultsWf_reset memory_wf_nil
  | engine _ rest _ ht => exact engineStep_resultsWf ht hi
  | write _ width o v rest _ ht => exact hostWrite_resultsWf ht hi
  | read _ width o rest ht =>
    rw [ht, hostRead_frame]
    exact hi
  | wait _ rest ht => exact ht ▸ hi
  | assertReset rest _ ht => exact ht ▸ resultsWf_reset memory_wf_nil
  | releaseReset _ rest ht => exact ht ▸ hi

theorem engineStep_resetInput {s t : State} (h : engineStep s = .next t) :
    t.resetInput = s.resetInput := by
  obtain ⟨-, rfl⟩ | ⟨k, -, rfl⟩ | ⟨-, i, -, h⟩ | ⟨-, -, rfl⟩ := engineStep_cases h
  · rfl
  · rfl
  · rw [exec_frame h]
  · rfl

theorem writeReg_resetInput (s : State) (r : Reg) (w : Word) :
    (writeReg s r w).resetInput = s.resetInput := by
  cases r with
  | ctrl =>
    simp only [writeReg, writeCtrl]
    split <;> rfl
  | mat m i j => exact setMat_resetInput s m _
  | _ => rfl

theorem hostWrite_resetInput (width : AccessWidth) (o : BitVec 12) (w : Word) (s : State) :
    (hostWrite width o w s).resetInput = s.resetInput := by
  obtain he | ⟨-, -, -, he⟩ | ⟨r, -, -, -, he⟩ := hostWrite_cases width o w s
  · rw [he]
  · rw [he, dropWrite_resetInput]
  · rw [he, writeReg_resetInput]

/-- After every step that leaves the reset input asserted, every register is at its reset value (R200). -/
theorem step_heldInReset {s t : State} (h : step s = .next t) : HeldInReset t := by
  intro hr'
  cases step_performs h with
  | inReset _ level _ _ ht =>
    subst ht
    obtain rfl : level = true := hr'
    rfl
  | engine hr rest _ ht => cases hr.symm.trans ((engineStep_resetInput ht).symm.trans hr')
  | write hr width o v rest _ ht =>
    rw [ht, hostWrite_resetInput] at hr'
    cases hr.symm.trans hr'
  | read hr width o rest ht =>
    rw [ht, hostRead_frame] at hr'
    cases hr.symm.trans hr'
  | wait hr rest ht => cases hr.symm.trans (ht ▸ hr')
  | assertReset rest _ ht => exact ht ▸ rfl
  | releaseReset hr rest ht => cases hr.symm.trans (ht ▸ hr')

/-- Settles O12: each of the three parts of the invariant is kept. -/
theorem stepKeepsInvariant : Obligations.StepKeepsInvariant := by
  intro s t hi h
  obtain ⟨hstatus, hresults, -⟩ := (inv_iff s).1 hi
  exact (inv_iff t).2 ⟨step_statusWf hstatus h, step_resultsWf hresults h, step_heldInReset h⟩

/-- Settles O13: each part of the invariant holds at reset. -/
theorem resetMeetsInvariant : Obligations.ResetMeetsInvariant :=
  (inv_iff State.reset).2 ⟨statusWf_reset, resultsWf_reset memory_wf_nil, nofun⟩

end Sys2Proof.Machine
end

section
/-! One step performs one event (R68), a host access that is not performed (R63), and the three ways in which
a step changes a byte of BUF (R60). -/

namespace Sys2Proof.Machine

/-! ### The byte of BUF that a step changes -/

/-- A write to a register changes only the byte at BUF_ADDR, through BUF_DATA (R35). -/
theorem writeReg_bufByte_changed {s : State} {r : Reg} {w : Word} {x : Nat}
    (hx : (writeReg s r w).bufByte x ≠ s.bufByte x) : r = .bufData ∧ x = s.bufAddr.toNat := by
  cases r with
  | bufData =>
    refine ⟨rfl, ?_⟩
    by_contra hne
    exact hx (bufByte_memWrite_outside s (by simp; omega))
  | ctrl =>
    simp only [writeReg, writeCtrl] at hx
    split at hx
    · exact absurd (softReset_bufByte s x) hx
    · exact absurd rfl hx
  | mat m i j => exact absurd (setMat_bufByte s m _ x) hx
  | _ => exact absurd rfl hx

/-- A host write changes only the byte at BUF_ADDR, by a performed write to BUF_DATA while IDLE (R35, R42). -/
theorem hostWrite_bufByte_changed {width : AccessWidth} {o : BitVec 12} {w : Word} {s : State} {x : Nat}
    (hx : (hostWrite width o w s).bufByte x ≠ s.bufByte x) :
    width = .word ∧ o = 0x038 ∧ s.busy = false ∧ x = s.bufAddr.toNat := by
  obtain he | ⟨-, -, -, he⟩ | ⟨r, hp, hr, hb, he⟩ := hostWrite_cases width o w s
  · rw [he] at hx
    exact absurd rfl hx
  · exact absurd (he ▸ dropWrite_bufByte s x) hx
  · rw [he] at hx
    obtain ⟨rfl, haddr⟩ := writeReg_bufByte_changed hx
    exact ⟨accessPerformed_width hp, (regAt_eq_some_iff o _).1 hr,
      Bool.eq_false_iff.2 fun hbusy => (nomatch hb hbusy), haddr⟩

/-- A command changes only bytes of the output region, as a codec command without error (R47, R60). -/
theorem exec_bufByte_changed {i : Instr} {s t : State} {x : Nat} (h : exec i s = .next t)
    (hx : t.bufByte x ≠ s.bufByte x) :
    writesBuf i = true ∧ t.errcode = 0 ∧ s.dst.toNat ≤ x ∧ x < s.dst.toNat + t.outlen.toNat := by
  simpa only [not_or, Bool.not_eq_false, not_not, not_lt, not_le] using
    mt (commandMemoryFrame i s t x h) hx

/-- An engine step changes a byte of BUF only as the completing step of a legal command (R44, R60). -/
theorem engineStep_bufByte_changed {s t : State} {x : Nat} (h : engineStep s = .next t)
    (hx : t.bufByte x ≠ s.bufByte x) :
    s.engine = .busy 0 ∧ ∃ i, decode s.cmd = .ok i ∧ exec i s = .next t := by
  obtain ⟨-, rfl⟩ | ⟨k, -, rfl⟩ | ⟨he, hexec⟩ | ⟨-, -, rfl⟩ := engineStep_cases h
  · exact absurd rfl hx
  · exact absurd rfl hx
  · exact ⟨he, hexec⟩
  · exact absurd (completeError_bufByte _ s x) hx

/-- Settles O34: of the events of a step only a hard reset, the port and the codec change a byte. -/
theorem bufChangesOnlyByPortCodecOrReset : Obligations.BufChangesOnlyByPortCodecOrReset := by
  intro s t x h hx
  cases step_performs h with
  | inReset hr _ _ _ _ => exact .inl (.inl hr)
  | assertReset rest ha _ => exact .inl (.inr ⟨rest, ha⟩)
  | write _ width o v rest ha ht =>
    obtain ⟨rfl, rfl, hb, haddr⟩ := hostWrite_bufByte_changed (ht ▸ hx)
    exact .inr (.inl ⟨v, rest, ha, hb, haddr⟩)
  | engine hr rest ha ht =>
    obtain ⟨he, i, hd, hexec⟩ := engineStep_bufByte_changed ht hx
    obtain ⟨hw, hcode, hlo, hhi⟩ := exec_bufByte_changed hexec hx
    have hidle : t.engine = .idle := congrArg State.engine (exec_frame hexec)
    have hdone : t.done = true := congrArg State.done (exec_frame hexec)
    exact .inr (.inr ⟨⟨hr, he, ha, hidle, hdone⟩, hcode, hlo, hhi, i, hd, hw⟩)
  | read _ width o rest ht =>
    rw [ht, hostRead_frame] at hx
    exact absurd rfl hx
  | wait _ rest ht => exact absurd (ht ▸ rfl) hx
  | releaseReset _ rest ht => exact absurd (ht ▸ rfl) hx

/-! ### The event that a step performs -/

/-- A poll of `WAIT` that finds DONE ends it (R87). -/
theorem hostWait_done {s : State} (hd : s.done = true) : hostWait s = s := by
  rw [hostWait, if_pos hd]

/-- A poll of `WAIT` that does not find DONE asks for an engine step and another poll (log 6). -/
theorem hostWait_notDone {s : State} (hd : s.done = false) :
    hostWait s = { s with agenda := .engine :: .wait :: s.agenda } := by
  rw [hostWait, if_neg (by simp [hd])]

/-- Settles O5: with the reset input released, a step is `performRunning` of the first event. -/
theorem stepPerformsNextEvent : Obligations.StepPerformsNextEvent := by
  intro s rest hr
  refine ⟨step_idle hr, step_engine hr, fun w o v ha => step_running hr ha,
    fun w o ha => step_running hr ha, fun ha hd => ?_, fun ha hd => ?_,
    step_running hr, step_running hr⟩
  · exact (step_running hr ha).trans (congrArg Host.Outcome.next (hostWait_done hd))
  · exact (step_running hr ha).trans (congrArg Host.Outcome.next (hostWait_notDone hd))

/-! ### Accesses that are not performed -/

/-- An access of another width or at an unaligned offset is not performed (R63). -/
theorem accessPerformed_eq_false {width : AccessWidth} {o : BitVec 12}
    (h : width ≠ .word ∨ o.toNat % 4 ≠ 0) : accessPerformed width o = false := by
  obtain hw | ho := h
  · exact accessPerformed_narrow hw o
  · simp [accessPerformed, ho]

/-- A read that is not performed returns 0 (R63). -/
theorem hostReadValue_unperformed {width : AccessWidth} {o : BitVec 12}
    (h : accessPerformed width o = false) (s : State) : hostReadValue width o s = 0 := by
  simp [hostReadValue, h]

/-- A read that is not performed has no side effect (R63). -/
theorem hostReadEffect_unperformed {width : AccessWidth} {o : BitVec 12}
    (h : accessPerformed width o = false) (s : State) : hostReadEffect width o s = s := by
  simp [hostReadEffect, h]

/-- Settles O46: such an access is not performed. -/
theorem unalignedOrNarrowAccessDoesNothing : Obligations.UnalignedOrNarrowAccessDoesNothing := by
  intro s width o w h
  have hp := accessPerformed_eq_false h
  refine ⟨hostWrite_unperformed hp w s, hostReadValue_unperformed hp s, ?_⟩
  rw [hostRead, hostReadValue_unperformed hp, hostReadEffect_unperformed hp]

end Sys2Proof.Machine
end

section
/-! The decoder, the encoder and the match and mask table of the opcode map, by the fields of a word (R80 to
R86). -/

namespace Sys2Proof

/-! ### The fields of a word -/

/-- A word is determined by its four fields (R80). -/
theorem word_eq_iff (w u : Word) :
    w = u ↔ rsv w = rsv u ∧ opc w = opc u ∧ fieldS w = fieldS u ∧ fieldD w = fieldD u :=
  ⟨fun h => h ▸ ⟨rfl, rfl, rfl, rfl⟩, fun ⟨hr, ho, hs, hd⟩ => word_ext hr hd hs ho⟩

section
variable (r : BitVec 22) (d s : Bool) (o : BitVec 8)

@[simp] theorem opc_append : opc (r ++ BitVec.ofBool d ++ BitVec.ofBool s ++ o) = o :=
  BitVec.extractLsb'_append_eq_right

@[simp] theorem fieldS_append :
    fieldS (r ++ BitVec.ofBool d ++ BitVec.ofBool s ++ o) = s := by
  rw [fieldS, BitVec.getLsbD_append, BitVec.getLsbD_append]
  simp

@[simp] theorem fieldD_append :
    fieldD (r ++ BitVec.ofBool d ++ BitVec.ofBool s ++ o) = d := by
  rw [fieldD, BitVec.getLsbD_append, BitVec.getLsbD_append, BitVec.getLsbD_append]
  simp

@[simp] theorem rsv_append :
    rsv (r ++ BitVec.ofBool d ++ BitVec.ofBool s ++ o) = r := by
  simp (disch := decide) only [rsv, BitVec.extractLsb'_append_eq_of_le]
  exact BitVec.extractLsb'_eq_self

end

section
variable (w v : Word)

@[simp] theorem opc_and : opc (w &&& v) = opc w &&& opc v := BitVec.extractLsb'_and

@[simp] theorem fieldS_and : fieldS (w &&& v) = (fieldS w && fieldS v) := BitVec.getLsbD_and

@[simp] theorem fieldD_and : fieldD (w &&& v) = (fieldD w && fieldD v) := BitVec.getLsbD_and

@[simp] theorem rsv_and : rsv (w &&& v) = rsv w &&& rsv v := BitVec.extractLsb'_and

end

@[simp] theorem matSelBit_matSelOf (b : Bool) : matSelBit (matSelOf b) = b := by cases b <;> rfl

@[simp] theorem matSelOf_matSelBit (m : MatSel) : matSelOf (matSelBit m) = m := by cases m <;> rfl

/-! ### Decoder and encoder -/

/-- The word has the fields of a command's encoding (R80). -/
def HasFields (w : Word) (i : Instr) : Prop :=
  rsv w = 0 ∧ opc w = opcodeOf i ∧ fieldS w = selS i ∧ fieldD w = selD i

theorem eq_encode_iff (w : Word) (i : Instr) : w = encode i ↔ HasFields w i := by
  simp [word_eq_iff, encode, HasFields]

theorem decodePlain_ok {w : Word} {i j : Instr} :
    decodePlain w i = .ok j ↔ i = j ∧ fieldS w = false ∧ fieldD w = false := by
  unfold decodePlain
  cases fieldS w <;> cases fieldD w <;> simp

theorem decodeS_ok {w : Word} {f : MatSel → Instr} {j : Instr} :
    decodeS w f = .ok j ↔ f (matSelOf (fieldS w)) = j ∧ fieldD w = false := by
  unfold decodeS
  cases fieldD w <;> simp

theorem decodeDS_ok {w : Word} {f : MatSel → MatSel → Instr} {j : Instr} :
    decodeDS w f = .ok j ↔ f (matSelOf (fieldD w)) (matSelOf (fieldS w)) = j := by
  simp [decodeDS]

section
variable {w : Word} {j : Instr} (hr : rsv w = 0)
include hr

theorem hasFields_of_decodePlain {i : Instr} (h : decodePlain w i = .ok j) (ho : opc w = opcodeOf i)
    (hs : selS i = false) (hd : selD i = false) : HasFields w j := by
  obtain ⟨rfl, hS, hD⟩ := decodePlain_ok.1 h
  exact ⟨hr, ho, hS.trans hs.symm, hD.trans hd.symm⟩

theorem hasFields_of_decodeS {f : MatSel → Instr} (h : decodeS w f = .ok j)
    (ho : ∀ m, opc w = opcodeOf (f m)) (hs : ∀ m, selS (f m) = matSelBit m)
    (hd : ∀ m, selD (f m) = false) : HasFields w j := by
  obtain ⟨rfl, hD⟩ := decodeS_ok.1 h
  exact ⟨hr, ho _, by simp [hs], hD.trans (hd _).symm⟩

theorem hasFields_of_decodeDS {f : MatSel → MatSel → Instr} (h : decodeDS w f = .ok j)
    (ho : ∀ m n, opc w = opcodeOf (f m n)) (hs : ∀ m n, selS (f m n) = matSelBit n)
    (hd : ∀ m n, selD (f m n) = matSelBit m) : HasFields w j := by
  obtain rfl := decodeDS_ok.1 h
  exact ⟨hr, ho _ _, by simp [hs], by simp [hd]⟩

end

/-- A word that decodes has the fields of the command it decodes to. -/
theorem hasFields_of_decode {w : Word} {i : Instr} (h : decode w = .ok i) : HasFields w i := by
  unfold decode at h
  split at h
  · cases h
  · next hr =>
    rw [not_not] at hr
    split at h
    case h_1 ho | h_2 ho | h_3 ho | h_8 ho | h_9 ho =>
      exact hasFields_of_decodePlain hr h (BitVec.eq_of_toNat_eq ho) rfl rfl
    case h_4 ho | h_7 ho | h_10 ho | h_11 ho =>
      exact hasFields_of_decodeS hr h (fun _ => BitVec.eq_of_toNat_eq ho) (fun _ => rfl) fun _ => rfl
    case h_5 ho | h_6 ho =>
      exact hasFields_of_decodeDS hr h (fun _ _ => BitVec.eq_of_toNat_eq ho) (fun _ _ => rfl)
        fun _ _ => rfl
    case h_12 => cases h

/-- A word with the fields of a command decodes to it. -/
theorem decode_of_hasFields {w : Word} {i : Instr} (h : HasFields w i) : decode w = .ok i := by
  obtain ⟨hr, ho, hs, hd⟩ := h
  unfold decode
  rw [if_neg (not_not.2 hr), ho]
  cases i <;> simp [opcodeOf, decodePlain_ok, decodeS_ok, decodeDS_ok, hs, hd, selS, selD]

/-- A word decodes to a command exactly if it has the fields of its encoding (R84). -/
theorem decode_iff (w : Word) (i : Instr) : decode w = .ok i ↔ HasFields w i :=
  ⟨hasFields_of_decode, decode_of_hasFields⟩

theorem decode_encode (i : Instr) : decode (encode i) = .ok i :=
  (decode_iff _ i).2 ((eq_encode_iff _ i).1 rfl)

/-- Settles O1: decoding and encoding both say that the word has the fields of the command. -/
theorem decodeAgreesWithEncode : Obligations.DecodeAgreesWithEncode := by
  refine ⟨fun w i => (decode_iff w i).trans (eq_encode_iff w i).symm, fun i rest _ => ?_⟩
  rw [decodeBytes_wordBytes, decode_encode]

/-- Settles O3: each word is the encoding of its command. -/
theorem exampleWordsDecode : Obligations.ExampleWordsDecode :=
  ⟨decode_encode .nop, decode_encode .gcd, decode_encode .modinv, decode_encode (.det .m1),
    decode_encode (.adj .m1 .m0), decode_encode (.inv .m1 .m0), decode_encode (.inv .m0 .m1),
    decode_encode (.inv .m1 .m1), decode_encode (.matvec .m1), decode_encode .pad,
    decode_encode .unpad, decode_encode (.enc .m0), decode_encode (.dec .m1)⟩

/-! ### The match and mask table -/

/-- The command uses the selector S (R83). -/
def usesS : Instr → Bool
  | .det _ | .adj _ _ | .inv _ _ | .matvec _ | .enc _ | .dec _ => true
  | .nop | .gcd | .modinv | .pad | .unpad => false

/-- The command uses the selector D (R83). -/
def usesD : Instr → Bool
  | .adj _ _ | .inv _ _ => true
  | .nop | .gcd | .modinv | .det _ | .matvec _ | .pad | .unpad | .enc _ | .dec _ => false

/-- The row of a command: its opcode, with every bit compared but the selectors it uses (R83). -/
def rowOf (i : Instr) : OpcodeRow where
  mnemonic := mnemonicOf i
  pattern := 0#22 ++ BitVec.ofBool false ++ BitVec.ofBool false ++ opcodeOf i
  mask := BitVec.allOnes 22 ++ BitVec.ofBool (!usesD i) ++ BitVec.ofBool (!usesS i) ++ BitVec.allOnes 8

/-- A command with the opcode and the row of another and the given selectors, where it uses them. -/
def Instr.withSelectors (d s : MatSel) : Instr → Instr
  | .det _ => .det s
  | .adj _ _ => .adj d s
  | .inv _ _ => .inv d s
  | .matvec _ => .matvec s
  | .enc _ => .enc s
  | .dec _ => .dec s
  | i => i

section
variable (i : Instr) (d s : MatSel)

@[simp] theorem opcodeOf_withSelectors : opcodeOf (i.withSelectors d s) = opcodeOf i := by
  cases i <;> rfl

@[simp] theorem rowOf_withSelectors : rowOf (i.withSelectors d s) = rowOf i := by cases i <;> rfl

@[simp] theorem selS_withSelectors : selS (i.withSelectors d s) = (usesS i && matSelBit s) := by
  cases i <;> rfl

@[simp] theorem selD_withSelectors : selD (i.withSelectors d s) = (usesD i && matSelBit d) := by
  cases i <;> rfl

end

/-- A selector that is 1 in a command's word is one that the command uses (R80). -/
theorem usesS_of_selS {i : Instr} (h : selS i = true) : usesS i = true := by
  cases i with
  | nop | gcd | modinv | pad | unpad => cases h
  | _ => rfl

theorem usesD_of_selD {i : Instr} (h : selD i = true) : usesD i = true := by
  cases i with
  | adj _ _ | inv _ _ => rfl
  | _ => cases h

/-- A command of each row. -/
def rowCommands : List Instr :=
  [.nop, .gcd, .modinv, .det .m0, .adj .m0 .m0, .inv .m0 .m0, .matvec .m0, .pad, .unpad, .enc .m0,
    .dec .m0]

theorem opcodeTable_eq : opcodeTable = rowCommands.map rowOf := by decide

/-- The table of R83 holds the rows of the commands and no other. -/
theorem mem_opcodeTable_iff (r : OpcodeRow) : r ∈ opcodeTable ↔ ∃ i, r = rowOf i := by
  rw [opcodeTable_eq, List.mem_map]
  refine ⟨fun ⟨i, _, hi⟩ => ⟨i, hi.symm⟩, fun ⟨i, hi⟩ => ⟨i.withSelectors .m0 .m0, ?_, ?_⟩⟩
  · cases i <;> simp [Instr.withSelectors, rowCommands]
  · rw [hi, rowOf_withSelectors]

/-- The fields of a word that matches a command's row (R83). -/
theorem matches_rowOf_iff (w : Word) (i : Instr) : w &&& (rowOf i).mask = (rowOf i).pattern ↔
    rsv w = 0 ∧ opc w = opcodeOf i ∧ (fieldS w = true → usesS i = true) ∧
      (fieldD w = true → usesD i = true) := by
  rw [word_eq_iff]
  simp only [rowOf, rsv_and, opc_and, fieldS_and, fieldD_and, rsv_append, opc_append, fieldS_append,
    fieldD_append, BitVec.and_allOnes]
  cases usesS i <;> cases usesD i <;> simp

/-- A word matches a command's row exactly if it decodes to a command of that row (R83). -/
theorem matches_rowOf_iff_decode (w : Word) (i : Instr) :
    w &&& (rowOf i).mask = (rowOf i).pattern ↔ ∃ j, decode w = .ok j ∧ rowOf j = rowOf i := by
  constructor
  · rw [matches_rowOf_iff]
    rintro ⟨hr, ho, hs, hd⟩
    refine ⟨i.withSelectors (matSelOf (fieldD w)) (matSelOf (fieldS w)), (decode_iff _ _).2 ?_,
      rowOf_withSelectors ..⟩
    simpa [HasFields, hr, ho] using ⟨hs, hd⟩
  · rintro ⟨j, hj, hrow⟩
    obtain ⟨hr, ho, hs, hd⟩ := hasFields_of_decode hj
    rw [← hrow, matches_rowOf_iff, hs, hd]
    exact ⟨hr, ho, usesS_of_selS, usesD_of_selD⟩

/-- Settles O2: matching a row is decoding to a command of that row, and a word decodes to one command. -/
theorem decodeFollowsMatchAndMask : Obligations.DecodeFollowsMatchAndMask := by
  simp only [Obligations.DecodeFollowsMatchAndMask, mem_opcodeTable_iff]
  refine ⟨fun w i h => ⟨rowOf i, ⟨i, rfl⟩, (matches_rowOf_iff_decode w i).2 ⟨i, h, rfl⟩, rfl⟩, ?_, ?_⟩
  · rintro w _ ⟨i, rfl⟩ h
    obtain ⟨j, hj, hrow⟩ := (matches_rowOf_iff_decode w i).1 h
    exact ⟨j, hj, congrArg OpcodeRow.mnemonic hrow⟩
  · rintro w _ ⟨i, rfl⟩ _ ⟨i', rfl⟩ h h'
    obtain ⟨j, hj, hrow⟩ := (matches_rowOf_iff_decode w i).1 h
    obtain ⟨j', hj', hrow'⟩ := (matches_rowOf_iff_decode w i').1 h'
    cases hj.symm.trans hj'
    exact hrow.symm.trans hrow'

/-! ### Illegal words -/

/-- An opcode is below 0x0B exactly if a command has it (R83, R84). -/
theorem opcode_lt_iff (o : BitVec 8) : o.toNat < 0x0B ↔ ∃ i, o = opcodeOf i := by
  constructor
  · intro h
    have hrows : ∀ n : Fin 0x0B, ∃ i ∈ rowCommands, BitVec.ofNat 8 n.val = opcodeOf i := by decide
    obtain ⟨i, -, hi⟩ := hrows ⟨o.toNat, h⟩
    exact ⟨i, (BitVec.ofNat_toNat 8 o).symm.trans hi⟩
  · rintro ⟨i, rfl⟩
    cases i <;> simp [opcodeOf]

/-- The opcodes of R84 with which S must be 0 are those of the commands that do not use it (R83). -/
theorem opcodeOf_mem_unusedS (i : Instr) :
    (opcodeOf i).toNat ∈ [0x00, 0x01, 0x02, 0x07, 0x08] ↔ ¬usesS i = true := by
  cases i <;> simp [opcodeOf, usesS]

/-- The opcodes of R84 with which D must be 0 are those of the commands that do not use it (R83). -/
theorem opcodeOf_mem_unusedD (i : Instr) :
    (opcodeOf i).toNat ∈ [0x00, 0x01, 0x02, 0x03, 0x06, 0x07, 0x08, 0x09, 0x0A] ↔
      ¬usesD i = true := by
  cases i <;> simp [opcodeOf, usesD]

/-- The cases of R84 for a word with a command's opcode: reserved bits, or a selector that the command does
not use. -/
theorem illegalWord_opcodeOf {w : Word} {i : Instr} (ho : opc w = opcodeOf i) :
    Machine.illegalWord w ↔ rsv w ≠ 0 ∨ (fieldS w = true ∧ ¬usesS i = true) ∨
      (fieldD w = true ∧ ¬usesD i = true) := by
  have hlt : ¬0x0B ≤ (opcodeOf i).toNat := not_le.2 ((opcode_lt_iff _).2 ⟨i, rfl⟩)
  rw [← opcodeOf_mem_unusedS, ← opcodeOf_mem_unusedD, ← ho]
  rw [← ho] at hlt
  exact or_iff_right hlt

/-- A word is in a case of R84 exactly if it matches no command's row. -/
theorem illegalWord_iff_rowOf (w : Word) :
    Machine.illegalWord w ↔ ∀ i, w &&& (rowOf i).mask ≠ (rowOf i).pattern := by
  simp only [ne_eq, matches_rowOf_iff]
  constructor
  · rintro h i ⟨hr, ho, hs, hd⟩
    obtain h | ⟨hS, hS'⟩ | ⟨hD, hD'⟩ := (illegalWord_opcodeOf ho).1 h
    · exact h hr
    · exact hS' (hs hS)
    · exact hD' (hd hD)
  · intro h
    by_cases hlt : (opc w).toNat < 0x0B
    · obtain ⟨i, ho⟩ := (opcode_lt_iff _).1 hlt
      have hi := h i
      rw [illegalWord_opcodeOf ho]
      tauto
    · exact .inl (not_lt.1 hlt)

/-- A word is in a case of R84 exactly if it does not decode. -/
theorem illegalWord_iff_decode (w : Word) : Machine.illegalWord w ↔ ¬∃ i, decode w = .ok i := by
  rw [illegalWord_iff_rowOf, not_exists]
  refine ⟨fun h i hi => h i ((matches_rowOf_iff_decode w i).2 ⟨i, hi, rfl⟩), fun h i hi => ?_⟩
  obtain ⟨j, hj, -⟩ := (matches_rowOf_iff_decode w i).1 hi
  exact h j hj

/-- Settles O4: no row is no command, and the rest is the acceptance and completion of such a word. -/
theorem illegalWordsCompleteWithIllegalCommand :
    Obligations.IllegalWordsCompleteWithIllegalCommand := by
  obtain ⟨haccept, -, -, -, hcomplete⟩ := Machine.commandWriteIsAccepted
  refine ⟨fun w => ?_, illegalWord_iff_decode, fun w s _ hb => haccept w s hb,
    fun s he h => hcomplete s he ((illegalWord_iff_decode _).1 h)⟩
  rw [illegalWord_iff_rowOf]
  simp [mem_opcodeTable_iff]

end Sys2Proof
end

section
/-! Runs of a few events: `WAIT` up to the completion (R87), and BUFWRITE and BUFREAD through the port (R88). -/

namespace Sys2Proof.Machine

/-! ### WAIT -/

/-- The last engine step completes the command or the illegal word (R44). -/
theorem engineStep_last_frame {s t : State} (h : engineStep s = .next t) (he : s.engine = .busy 0) :
    t.done = true ∧ t.engine = .idle ∧ t.agenda = s.agenda ∧ t.resetInput = s.resetInput := by
  obtain ⟨hi, -⟩ | ⟨k, hk, -⟩ | ⟨-, i, -, h⟩ | ⟨-, -, rfl⟩ := engineStep_cases h
  · cases he.symm.trans hi
  · cases he.symm.trans hk
  · rw [exec_frame h]
    exact ⟨rfl, rfl, rfl, rfl⟩
  · exact ⟨rfl, rfl, rfl, rfl⟩

/-- A poll of `WAIT` with DONE 0 and the engine step after it (log 6). -/
theorem runSteps_poll {s : State} {rest : List Event} (hr : s.resetInput = false)
    (hd : s.done = false) (ha : s.agenda = .wait :: rest) :
    runSteps 2 s = engineStep { s with agenda := .wait :: rest } := by
  have hpoll : step s = .next { s with agenda := .engine :: .wait :: rest } :=
    (step_running hr ha).trans (congrArg Host.Outcome.next (hostWait_notDone hd))
  rw [runSteps_succ hpoll, runSteps_one]
  exact step_engine hr rfl

/-- Settles O9: a poll and an engine step for each step before the last, then the completion and the poll
that sees it. -/
theorem waitEndsAtCompletion : Obligations.WaitEndsAtCompletion := by
  intro s k rest hr he hd ha
  induction k generalizing s with
  | zero =>
    obtain ⟨t, ht⟩ := engineStep_total { s with agenda := .wait :: rest }
    obtain ⟨hdone, hidle, hagenda, hreset⟩ := engineStep_last_frame ht he
    refine ⟨{ t with agenda := rest }, ?_, rfl, hdone, hidle⟩
    rw [runSteps_add ((runSteps_poll hr hd ha).trans ht) 1, runSteps_one,
      step_running (hreset.trans hr) hagenda]
    exact congrArg Host.Outcome.next (hostWait_done hdone)
  | succ k ih =>
    have hround := (runSteps_poll hr hd ha).trans (engineStep_wait he)
    obtain ⟨t, ht, hend⟩ := ih { s with engine := .busy k, agenda := .wait :: rest } hr rfl hd rfl
    refine ⟨t, ?_, hend⟩
    rw [show 2 * (k + 1) + 3 = 2 + (2 * k + 3) by omega, runSteps_add hround]
    exact ht

/-! ### The port -/

/-- BUF after consecutive writes through the port from an address, past 65535 at 0 again (R35). -/
def portStore (m : Memory) (a : BitVec 16) : List Byte → Memory
  | [] => m
  | b :: bs => portStore (m.store a.toNat [b]) (a + 1) bs

/-- The bytes that consecutive reads through the port return, from an address (R35). -/
def portBytes (buf : Nat → Byte) (a : BitVec 16) : Nat → List Byte
  | 0 => []
  | k + 1 => buf a.toNat :: portBytes buf (a + 1) k

theorem lookup_store_one (m : Memory) (a : Nat) (b : Byte) (x : Nat) :
    (m.store a [b]).lookup x = if x = a then some b else m.lookup x := by
  rw [lookup_store]
  by_cases h : x = a
  · subst h; simp
  · rw [if_neg (by rw [List.length_singleton]; omega), if_neg h]

theorem succ_add_mod (a : BitVec 16) (k : Nat) :
    ((a + 1).toNat + k) % 65536 = (a.toNat + (k + 1)) % 65536 := by
  rw [BitVec.toNat_add, show (1 : BitVec 16).toNat = 1 from rfl]
  omega

/-- The port writes no byte outside its range. -/
theorem lookup_portStore_outside (bytes : List Byte) (m : Memory) (a : BitVec 16) (x : Nat)
    (h : ∀ k < bytes.length, x ≠ (a.toNat + k) % 65536) :
    (portStore m a bytes).lookup x = m.lookup x := by
  induction bytes generalizing m a with
  | nil => rfl
  | cons b bs ih =>
    have hx : x ≠ a.toNat := by simpa [Nat.mod_eq_of_lt a.isLt] using h 0 (by simp)
    rw [portStore, ih, lookup_store_one, if_neg hx]
    intro k hk
    rw [succ_add_mod]
    exact h (k + 1) (by simpa using hk)

/-- At most 65536 bytes written through the port stand in BUF in order. -/
theorem lookup_portStore (bytes : List Byte) (m : Memory) (a : BitVec 16)
    (hlen : bytes.length ≤ 65536) (k : Nat) (hk : k < bytes.length) :
    (portStore m a bytes).lookup ((a.toNat + k) % 65536) = some bytes[k] := by
  induction bytes generalizing m a k with
  | nil => cases hk
  | cons b bs ih =>
    rw [List.length_cons] at hlen hk
    have ha := a.isLt
    cases k with
    | zero =>
      rw [portStore, lookup_portStore_outside]
      · simp [lookup_store_one, Nat.mod_eq_of_lt ha]
      · intro j hj
        rw [succ_add_mod]
        omega
    | succ k =>
      rw [portStore, ← succ_add_mod]
      exact ih _ _ (by omega) k (by omega)

/-- The port reads a byte per address, past 65535 at 0 again (R35). -/
theorem portBytes_eq_map (buf : Nat → Byte) (a : BitVec 16) (k : Nat) :
    portBytes buf a k = (List.range k).map fun j => buf ((a.toNat + j) % 65536) := by
  induction k generalizing a with
  | zero => rfl
  | succ k ih =>
    rw [portBytes, ih, List.range_succ_eq_map, List.map_cons, List.map_map, Nat.add_zero,
      Nat.mod_eq_of_lt a.isLt]
    simp only [succ_add_mod]
    rfl

theorem add_ofNat_succ (a : BitVec 16) (k : Nat) :
    a + 1 + BitVec.ofNat 16 k = a + BitVec.ofNat 16 (k + 1) := by
  rw [BitVec.add_assoc, BitVec.ofNat_add, BitVec.add_comm (BitVec.ofNat 16 k)]
  rfl

/-- An event `WR` of a register while IDLE (R87). -/
theorem step_wrEvent {s : State} {r : Reg} {v : Word} {rest : List Event} (hr : s.resetInput = false)
    (hb : s.busy = false) (ha : s.agenda = wrEvent r v :: rest) :
    step s = .next (writeReg { s with agenda := rest } r v) :=
  (step_running hr ha).trans (congrArg Host.Outcome.next
    (hostWrite_regOffset (s := { s with agenda := rest }) (.inl hb) v))

/-- `WR BUF_ADDR` while IDLE (R34). -/
theorem step_wrBufAddr {s : State} {a : BitVec 16} {rest : List Event} (hr : s.resetInput = false)
    (hb : s.busy = false) (ha : s.agenda = wrEvent .bufAddr (a.setWidth 32) :: rest) :
    step s = .next { s with bufAddr := a, agenda := rest } := by
  rw [step_wrEvent hr hb ha]
  simp [writeReg]

/-- `WR BUF_DATA` while IDLE (R35). -/
theorem step_wrBufData {s : State} {b : Byte} {rest : List Event} (hr : s.resetInput = false)
    (hb : s.busy = false) (ha : s.agenda = wrEvent .bufData (b.setWidth 32) :: rest) :
    step s = .next { s with
      buf := s.buf.store s.bufAddr.toNat [b], bufAddr := s.bufAddr + 1, agenda := rest } := by
  rw [step_wrEvent hr hb ha]
  simp [writeReg, advanceBufAddr, memWrite]

/-- `RD BUF_DATA` (R35, log 6). -/
theorem step_rdBufData {s : State} {rest : List Event} (hr : s.resetInput = false)
    (ha : s.agenda = rdEvent .bufData :: rest) :
    step s = .next { s with
      bufAddr := s.bufAddr + 1, reads := s.reads ++ [(s.bufByte s.bufAddr.toNat).setWidth 32]
      agenda := rest } :=
  step_running hr ha

/-- As many port writes as there are bytes, while IDLE (R35). -/
theorem runSteps_portWrites {s : State} (hr : s.resetInput = false) (hb : s.busy = false)
    (bytes : List Byte) (rest : List Event)
    (ha : s.agenda = bytes.map (fun b => wrEvent .bufData (b.setWidth 32)) ++ rest) :
    runSteps bytes.length s = .next { s with
      buf := portStore s.buf s.bufAddr bytes, bufAddr := s.bufAddr + BitVec.ofNat 16 bytes.length
      agenda := rest } := by
  induction bytes generalizing s with
  | nil =>
    obtain rfl : s.agenda = rest := ha
    simp [portStore]
  | cons b bs ih =>
    rw [List.length_cons, runSteps_succ (step_wrBufData hr hb ha), ih, add_ofNat_succ, portStore]
    exacts [hr, hb, rfl]

/-- As many port reads as asked for (R35, log 6). -/
theorem runSteps_portReads {s : State} (hr : s.resetInput = false) (k : Nat) (rest : List Event)
    (ha : s.agenda = List.replicate k (rdEvent .bufData) ++ rest) :
    runSteps k s = .next { s with
      bufAddr := s.bufAddr + BitVec.ofNat 16 k
      reads := s.reads ++ (portBytes s.bufByte s.bufAddr k).map (BitVec.setWidth 32)
      agenda := rest } := by
  induction k generalizing s with
  | zero =>
    obtain rfl : s.agenda = rest := ha
    simp [portBytes]
  | succ k ih =>
    rw [runSteps_succ (step_rdBufData hr ha), ih, add_ofNat_succ, List.append_assoc]
    exacts [rfl, hr, rfl]

/-- BUFWRITE: its bytes go through the port from its address (R88). -/
theorem runSteps_bufWrite {s : State} (hr : s.resetInput = false) (hb : s.busy = false)
    (a : BitVec 16) (bytes : List Byte) (rest : List Event)
    (ha : s.agenda = expandOp (.bufWrite a bytes) ++ rest) :
    runSteps (bytes.length + 1) s = .next { s with
      buf := portStore s.buf a bytes, bufAddr := a + BitVec.ofNat 16 bytes.length
      agenda := rest } := by
  rw [runSteps_succ (step_wrBufAddr hr hb ha), runSteps_portWrites]
  exacts [hr, hb, rfl]

/-- BUFREAD: its bytes come through the port from its address (R88). -/
theorem runSteps_bufRead {s : State} (hr : s.resetInput = false) (hb : s.busy = false)
    (a : BitVec 16) (k : Nat) (rest : List Event) (ha : s.agenda = expandOp (.bufRead a k) ++ rest) :
    runSteps (k + 1) s = .next { s with
      bufAddr := a + BitVec.ofNat 16 k
      reads := s.reads ++ (portBytes s.bufByte a k).map (BitVec.setWidth 32)
      agenda := rest } := by
  rw [runSteps_succ (step_wrBufAddr hr hb ha), runSteps_portReads]
  exacts [rfl, hr, rfl]

section
variable {s t : State} {a : BitVec 16} {bytes : List Byte} (hbuf : t.buf = portStore s.buf a bytes)
include hbuf

theorem bufByte_portStore (hlen : bytes.length ≤ 65536) (k : Nat) (hk : k < bytes.length) :
    t.bufByte ((a.toNat + k) % 65536) = bytes[k] := by
  rw [State.bufByte, hbuf, lookup_portStore bytes s.buf a hlen k hk]

theorem bufByte_portStore_outside (he : t.bufEpoch = s.bufEpoch) (x : Nat)
    (hx : ∀ k < bytes.length, x ≠ (a.toNat + k) % 65536) : t.bufByte x = s.bufByte x := by
  rw [State.bufByte, hbuf, lookup_portStore_outside bytes s.buf a x hx, he, State.bufByte]

/-- The port reads back what it stored. -/
theorem portBytes_portStore (hlen : bytes.length ≤ 65536) :
    portBytes t.bufByte a bytes.length = bytes := by
  rw [portBytes_eq_map]
  exact List.ext_getElem (by simp) fun k _ hk => by simpa using bufByte_portStore hbuf hlen k hk

end

/-- BUFWRITE and BUFREAD of the same range: the host reads the bytes it wrote (R88). -/
theorem runSteps_bufWrite_bufRead {s : State} (hr : s.resetInput = false) (hb : s.busy = false)
    (a : BitVec 16) (bytes : List Byte) (hlen : bytes.length ≤ 65536) (rest : List Event)
    (ha : s.agenda = expandOp (.bufWrite a bytes) ++ (expandOp (.bufRead a bytes.length) ++ rest)) :
    runSteps (2 * bytes.length + 2) s = .next { s with
      buf := portStore s.buf a bytes, bufAddr := a + BitVec.ofNat 16 bytes.length
      reads := s.reads ++ bytes.map (BitVec.setWidth 32), agenda := rest } := by
  rw [show 2 * bytes.length + 2 = bytes.length + 1 + (bytes.length + 1) by omega,
    runSteps_add (runSteps_bufWrite hr hb a bytes _ ha), runSteps_bufRead (a := a) (rest := rest),
    portBytes_portStore rfl hlen]
  exacts [hr, hb, rfl]

/-- Settles O51: the port reads the bytes at the addresses at which it stored them. -/
theorem bufWriteThenBufReadReturnsBytes : Obligations.BufWriteThenBufReadReturnsBytes := by
  intro s a bytes rest hr hb hlen ha
  rw [List.append_assoc] at ha
  exact ⟨_, runSteps_bufWrite_bufRead hr hb a bytes hlen rest ha, rfl, rfl, rfl,
    bufByte_portStore rfl hlen, bufByte_portStore_outside rfl rfl⟩

end Sys2Proof.Machine
end

section
/-! A command depends only on the operands it reads (R82). -/

namespace Sys2Proof.Machine

/-! ### What the meanings compute from the operands -/

theorem tab_congr {α : Type} {n : Nat} {f g : Nat → Nat → α} (h : ∀ i < n, ∀ j < n, f i j = g i j) :
    tab n f = tab n g :=
  List.map_congr_left fun i hi => List.map_congr_left fun j hj =>
    h i (List.mem_range.1 hi) j (List.mem_range.1 hj)

section
variable {s s' : State}

theorem M_congr (h : s.modulus = s'.modulus) : s.M = s'.M := by rw [State.M, h, State.M]

theorem N_congr (h : s.dim = s'.dim) : s.N = s'.N := by rw [State.N, h, State.N]

theorem badDim_congr (h : s.dim = s'.dim) : badDim s = badDim s' := by
  rw [badDim, N_congr h, badDim]

theorem vinList_congr (hN : s.N = s'.N) (h : ∀ j < s.N, s.vinAt j = s'.vinAt j) :
    vinList s = vinList s' := by
  rw [vinList, vinList, ← hN]
  exact List.map_congr_left fun j hj => h j (List.mem_range.1 hj)

/-! The same modulus, dimension and key. -/

section
variable {m : MatSel} (h : sameKey s s' m)
include h

theorem sameKey.dim_eq : s.dim = s'.dim := h.2.1

theorem sameKey.entry_eq : ∀ i < s.N, ∀ j < s.N, s.entry m i j = s'.entry m i j := h.2.2

theorem sameKey.M_eq : s.M = s'.M := M_congr h.1

theorem sameKey.N_eq : s.N = s'.N := N_congr h.dim_eq

theorem sameKey.badConfig_eq : badConfig s = badConfig s' := by
  rw [badConfig, h.M_eq, badDim_congr h.dim_eq, badConfig]

theorem sameKey.keyRows_eq : keyRows s m = keyRows s' m := by
  rw [keyRows, tab_congr h.entry_eq, h.N_eq, keyRows]

theorem sameKey.keyInts_eq : keyInts s m = keyInts s' m := by
  rw [keyInts, tab_congr fun i hi j hj => congrArg Nat.cast (h.entry_eq i hi j hj), h.N_eq, keyInts]

theorem sameKey.badMatrix_eq : badMatrix s m = badMatrix s' m := by
  rw [badMatrix, h.keyRows_eq, h.M_eq, badMatrix]

theorem sameKey.keyDet_eq : keyDet s m = keyDet s' m := by
  rw [keyDet, h.keyInts_eq, h.N_eq, h.M_eq, keyDet]

theorem sameKey.keyAdj_eq : keyAdj s m = keyAdj s' m := by
  funext i j
  rw [keyAdj, h.keyInts_eq, h.N_eq, h.M_eq, keyAdj]

theorem sameKey.keyInv_eq : keyInv s m = keyInv s' m := by
  funext i j
  rw [keyInv, h.keyDet_eq, h.keyInts_eq, h.N_eq, h.M_eq, keyInv]

theorem sameKey.singular_eq : singular s m = singular s' m := by
  rw [singular, h.keyDet_eq, h.M_eq, singular]

end

/-! The same input region. -/

section
variable (h : sameInput s s')
include h

theorem sameInput.dst_eq : s.dst = s'.dst := h.2.1

theorem sameInput.len_eq : s.len = s'.len := h.2.2.1

theorem sameInput.inputBytes_eq : inputBytes s = inputBytes s' := by
  obtain ⟨hsrc, -, hlen, hbytes⟩ := h
  rw [inputBytes, inputBytes, ← hsrc, ← hlen]
  exact List.map_congr_left fun k hk => hbytes k (List.mem_range.1 hk)

theorem sameInput.badRegions_eq : badRegions s = badRegions s' := by
  obtain ⟨hsrc, hdst, hlen, -⟩ := h
  funext maxout
  rw [badRegions, hsrc, hdst, hlen, badRegions]

theorem sameInput.paddedInput_eq (hd : s.dim = s'.dim) : paddedInput s = paddedInput s' := by
  rw [paddedInput, h.inputBytes_eq, N_congr hd, h.len_eq, paddedInput]

theorem sameInput.cipherBytes_eq {m : MatSel} (hk : sameKey s s' m) :
    cipherBytes s m = cipherBytes s' m := by
  rw [cipherBytes, h.paddedInput_eq hk.dim_eq, hk.N_eq, hk.M_eq, hk.keyRows_eq, cipherBytes]

theorem sameInput.plainBytes_eq {m : MatSel} (hk : sameKey s s' m) :
    plainBytes s m = plainBytes s' m := by
  rw [plainBytes, h.inputBytes_eq, hk.N_eq, hk.M_eq, hk.keyInv_eq, plainBytes]

end

theorem badSymbols_congr (hM : s.M = s'.M) (bytes : List Byte) :
    badSymbols s bytes = badSymbols s' bytes := by
  rw [badSymbols, hM, badSymbols]

/-! ### Checks and results -/

/-- The checks of a command read only its operands (R174). -/
theorem checksOf_congr {i : Instr} (h : sameOperands i s s') : checksOf i s = checksOf i s' := by
  cases i with
  | nop | gcd => rfl
  | modinv =>
    obtain ⟨ha, hb⟩ := h
    simp only [checksOf, ha, hb]
  | det m | adj _ m =>
    simp only [checksOf, sameKey.badConfig_eq h, sameKey.badMatrix_eq h]
  | inv _ m =>
    simp only [checksOf, sameKey.badConfig_eq h, sameKey.badMatrix_eq h, sameKey.singular_eq h]
  | matvec m =>
    obtain ⟨hk, hv⟩ := h
    simp only [checksOf, hk.badConfig_eq, hk.badMatrix_eq, badVector, vinList_congr hk.N_eq hv, hk.M_eq]
  | pad =>
    obtain ⟨hd, hin⟩ := h
    simp only [checksOf, badDim_congr hd, hin.badRegions_eq, hin.len_eq, N_congr hd]
  | unpad =>
    simp only [checksOf, sameInput.badRegions_eq h, sameInput.len_eq h, sameInput.inputBytes_eq h]
  | enc m =>
    obtain ⟨hk, hin⟩ := h
    simp only [checksOf, hk.badConfig_eq, hk.badMatrix_eq, hin.badRegions_eq, hin.len_eq, hk.N_eq,
      hin.paddedInput_eq hk.dim_eq, badSymbols_congr hk.M_eq]
  | dec m =>
    obtain ⟨hk, hin⟩ := h
    simp only [checksOf, hk.badConfig_eq, hk.badMatrix_eq, hin.badRegions_eq, hin.len_eq, hk.N_eq,
      hin.inputBytes_eq, hin.plainBytes_eq hk, hk.singular_eq, badSymbols_congr hk.M_eq]

/-- The output and the padding length of a codec command, stored at the same address (R47). -/
theorem commitOf_codec_congr {i : Instr} (h : sameOperands i s s') (hw : writesBuf i = true) :
    s.dst = s'.dst ∧ ∃ (out : List Byte) (p : Nat),
      commitOf i s = commitCodec out p s ∧ commitOf i s' = commitCodec out p s' := by
  cases i with
  | pad =>
    obtain ⟨hd, hin⟩ := h
    refine ⟨hin.dst_eq, _, _, rfl, ?_⟩
    rw [hin.paddedInput_eq hd, N_congr hd, hin.len_eq, commitOf]
  | unpad =>
    refine ⟨sameInput.dst_eq h, _, _, rfl, ?_⟩
    rw [sameInput.inputBytes_eq h, sameInput.len_eq h, commitOf]
  | enc m =>
    obtain ⟨hk, hin⟩ := h
    refine ⟨hin.dst_eq, _, _, rfl, ?_⟩
    rw [hin.cipherBytes_eq hk, hk.N_eq, hin.len_eq, commitOf]
  | dec m =>
    obtain ⟨hk, hin⟩ := h
    refine ⟨hin.dst_eq, _, _, rfl, ?_⟩
    rw [hin.plainBytes_eq hk, hin.len_eq, commitOf]
  | _ => cases hw

/-- RES after the commit of a command that writes it (R47). -/
theorem commitOf_res_congr {i : Instr} (h : sameOperands i s s') (hw : writesRes i = true) :
    (commitOf i s).res = (commitOf i s').res := by
  cases i with
  | gcd | modinv =>
    obtain ⟨ha, hb⟩ := h
    simp only [commitOf, ha, hb]
  | det m | inv _ m => simp only [commitOf, sameKey.keyDet_eq h]
  | pad | unpad | enc _ | dec _ =>
    obtain ⟨-, out, p, hc, hc'⟩ := commitOf_codec_congr h rfl
    rw [hc, hc', commitCodec_res, commitCodec_res]
  | _ => cases hw

/-- The entries of VOUT that a command writes (R47). -/
theorem commitOf_vout_congr {i : Instr} (h : sameOperands i s s') (hw : writesVout i = true)
    {k : Fin 16} (hk : k.val < s.N) : (commitOf i s).vout[k] = (commitOf i s').vout[k] := by
  cases i with
  | matvec m =>
    obtain ⟨hkey, hv⟩ := h
    simp only [commitOf, withFirst_get, hkey.M_eq, hkey.keyRows_eq, vinList_congr hkey.N_eq hv]
    rw [if_pos hk, if_pos (hkey.N_eq ▸ hk)]
  | _ => cases hw

/-- The replaced entries of a matrix register do not depend on its old contents. -/
theorem entry_congr_withTopLeft {d : MatSel} {old old' : MatReg} {N : Nat} {f : Nat → Nat → Nat}
    (hs : s.mat d = withTopLeft old N f) (hs' : s'.mat d = withTopLeft old' N f) {a b : Nat}
    (ha : a < N) (hb : b < N) : s.entry d a b = s'.entry d a b := by
  unfold State.entry
  split
  · next hlt =>
    have hget := fun old : MatReg => withTopLeft_get old N f ⟨a, hlt.1⟩ ⟨b, hlt.2⟩
    simp only [if_pos (And.intro ha hb)] at hget
    rw [hs, hs']
    exact congrArg BitVec.toNat ((hget old).trans (hget old').symm)
  · rfl

/-- The entries of a matrix register that a command writes (R47). -/
theorem commitOf_entry_congr {i : Instr} {d : MatSel} (h : sameOperands i s s')
    (hw : writesMat i = some d) {a b : Nat} (ha : a < s.N) (hb : b < s.N) :
    (commitOf i s).entry d a b = (commitOf i s').entry d a b := by
  cases i with
  | adj d' m =>
    cases hw
    refine entry_congr_withTopLeft (old' := s'.mat d) (mat_setMat_same s d _) ?_ ha hb
    rw [sameKey.N_eq h, sameKey.keyAdj_eq h]
    exact mat_setMat_same s' d _
  | inv d' m =>
    cases hw
    refine entry_congr_withTopLeft (old' := s'.mat d) (mat_setMat_same s d _) ?_ ha hb
    rw [sameKey.N_eq h, sameKey.keyInv_eq h]
    exact mat_setMat_same s' d _
  | _ => cases hw

/-- OUTLEN and the output of a command that writes BUF (R47). -/
theorem commitOf_output_congr {i : Instr} (h : sameOperands i s s') (hw : writesBuf i = true) :
    (commitOf i s).outlen = (commitOf i s').outlen ∧ ∀ k < (commitOf i s).outlen.toNat,
      (commitOf i s).bufByte (s.dst.toNat + k) = (commitOf i s').bufByte (s.dst.toNat + k) := by
  obtain ⟨hdst, out, p, hc, hc'⟩ := commitOf_codec_congr h hw
  rw [hc, hc']
  refine ⟨rfl, fun k hk => ?_⟩
  have hout : k < out.length := hk.trans_le (Nat.mod_le _ _)
  simp only [commitCodec_bufByte, bufByte_memWrite, ← hdst]
  rw [dif_pos (by omega), dif_pos (by omega)]

end

/-- Settles O32: the checks agree, so either both commands complete with one error or both commit. -/
theorem commandDependsOnlyOnItsOperands : Obligations.CommandDependsOnlyOnItsOperands := by
  intro i s s' t t' h ht ht'
  have hchecks := congrArg firstError (checksOf_congr h)
  obtain ⟨e, he, rfl⟩ | ⟨hpass, rfl⟩ := exec_cases ht
  · obtain ⟨e', he', rfl⟩ | ⟨hpass', -⟩ := exec_cases ht'
    · cases he.symm.trans (hchecks.trans he')
      exact ⟨rfl, fun hcode => absurd hcode (code_ne_zero e)⟩
    · cases he.symm.trans (hchecks.trans hpass')
  · obtain ⟨e', he', -⟩ | ⟨-, rfl⟩ := exec_cases ht'
    · cases hpass.symm.trans (hchecks.trans he')
    · exact ⟨rfl, fun _ => ⟨commitOf_res_congr h, fun hw _ => commitOf_vout_congr h hw,
        fun d hw a ha b hb => commitOf_entry_congr h hw ha hb, commitOf_output_congr h⟩⟩

end Sys2Proof.Machine
end

section
/-! The scalar unit: NOP, GCD and MODINV (R99 to R104). -/

namespace Sys2Proof.Machine

/-! ### The two outcomes of a command -/

/-- `exec_ok` with the completion in the terms of the claims. -/
theorem exec_succeeded {i : Instr} {s : State} (h : firstError (checksOf i s) = none) :
    exec i s = .next (commitOf i s).succeeded :=
  exec_ok h

/-- `exec_error` with the completion in the terms of the claims. -/
theorem exec_failedWith {i : Instr} {s : State} {e : ErrorCode}
    (h : firstError (checksOf i s) = some e) : exec i s = .next (s.failedWith e.code) :=
  exec_error h

/-! ### NOP -/

/-- STATUS after a success that found ERR and OVR clear: DONE alone (R24, R46). -/
theorem statusWord_succeeded {s : State} (he : s.err = false) (ho : s.ovr = false) :
    statusWord s.succeeded = 0x2 := by
  simp only [statusWord, State.succeeded, State.busy, he, ho]
  rfl

/-- Settles O14: NOP has no check and commits nothing. -/
theorem nopOnlyCompletes : Obligations.NopOnlyCompletes :=
  ⟨rfl, fun s => ⟨exec_succeeded rfl, fun he ho =>
    (hostReadValue_regOffset s.succeeded .status).trans (statusWord_succeeded he ho)⟩⟩

/-! ### GCD -/

/-- The greatest common divisor of two words fits a word: at most a if a is not 0, else it is b. -/
theorem gcd_word_lt (a b : Word) : Nat.gcd a.toNat b.toNat < 2 ^ 32 := by
  rcases Nat.eq_zero_or_pos a.toNat with ha | ha
  · rw [ha, Nat.gcd_zero_left]
    exact b.isLt
  · exact (Nat.gcd_le_left _ ha).trans_lt a.isLt

/-- Settles O15: GCD has no check, and RES holds `Nat.gcd` without truncation. -/
theorem gcdLeavesGreatestCommonDivisor : Obligations.GcdLeavesGreatestCommonDivisor := by
  refine ⟨rfl, fun s => ⟨BitVec.ofNat 32 (Nat.gcd s.opa.toNat s.opb.toNat), exec_succeeded rfl,
    fun d => ?_⟩⟩
  rw [BitVec.toNat_ofNat, Nat.mod_eq_of_lt (gcd_word_lt s.opa s.opb)]
  exact Nat.dvd_gcd_iff

/-! ### MODINV -/

/-- The checks of MODINV in their order: OPB below 2, then a common factor (R104). -/
theorem firstError_modinv (s : State) : firstError (checksOf .modinv s) =
    if s.opb.toNat < 2 then some .operandRange
    else if Nat.gcd (s.opa.toNat % s.opb.toNat) s.opb.toNat ≠ 1 then some .notInvertible
    else none := by
  simp only [checksOf, firstError_cons, firstError_nil, decide_eq_true_eq, bne_iff_ne]

/-- RES holds the inverse modulo a word without truncation (R104). -/
theorem toNat_invMod_word (a : Nat) {m : Word} (hm : 2 ≤ m.toNat) :
    (BitVec.ofNat 32 (invMod a m.toNat)).toNat = invMod a m.toNat := by
  have hlt := invMod_lt a (m := m.toNat) (by omega)
  rw [BitVec.toNat_ofNat, Nat.mod_eq_of_lt (hlt.trans m.isLt)]

/-- Settles O16: the first check is OPB below 2, the second a common factor; past both RES is `invMod`, which
inverts and is the only residue that does. -/
theorem modinvLeavesUniqueInverse : Obligations.ModinvLeavesUniqueInverse := by
  refine ⟨rfl, fun s => ⟨fun hm => exec_failedWith (e := .operandRange) ?_,
    fun hm hg => exec_failedWith (e := .notInvertible) ?_,
    fun hm hg => ⟨_, exec_succeeded (i := .modinv) ?_, ?_⟩⟩⟩
  · rw [firstError_modinv, if_pos hm]
  · rw [firstError_modinv, if_neg hm.not_gt, if_pos hg]
  · rw [firstError_modinv, if_neg hm.not_gt, if_neg (not_not_intro hg)]
  · rw [toNat_invMod_word _ hm]
    exact ⟨invMod_lt _ (by omega), mul_invMod hm hg, fun y hy hinv => invMod_unique hm hg hy hinv⟩

end Sys2Proof.Machine
end

section
/-! The matrix unit: the checks of DET, ADJ, INV and MATVEC in their order, and what each command writes
(R120 to R130). -/

namespace Sys2Proof.Machine

/-! ### The checks in their order -/

/-- A command that first checks the configuration raises BAD_CONFIG for a bad one (R120, R175). -/
theorem exec_badConfig {i : Instr} {s : State} {rest : List (Bool × ErrorCode)}
    (hi : checksOf i s = (badConfig s, .badConfig) :: rest) (hc : ¬ConfigOk s) :
    exec i s = .next (s.failedWith 6) := by
  refine exec_failedWith (e := .badConfig) ?_
  rw [hi, Bool.eq_true_of_not_eq_false (mt (badConfig_eq_false s).1 hc), firstError_true]

/-- A command of the matrix unit raises OPERAND_RANGE for an entry of M or more (R120, R175). -/
theorem exec_badMatrix {i : Instr} {s : State} {m : MatSel} {rest : List (Bool × ErrorCode)}
    (hi : checksOf i s = (badConfig s, .badConfig) :: (badMatrix s m, .operandRange) :: rest)
    (hc : ConfigOk s) (hm : ¬MatrixOk s m) : exec i s = .next (s.failedWith 7) := by
  have hbad : badMatrix s m = true := Bool.eq_true_of_not_eq_false (mt (badMatrix_eq_false s m).1 hm)
  refine exec_failedWith (e := .operandRange) ?_
  rw [hi, (badConfig_eq_false s).2 hc, firstError_false, hbad, firstError_true]

/-- The error of the check that comes after those of the configuration and the key (R127, R130). -/
theorem exec_thirdCheck {i : Instr} {s : State} {m : MatSel} {c : Bool} {e : ErrorCode}
    {rest : List (Bool × ErrorCode)}
    (hi : checksOf i s = (badConfig s, .badConfig) :: (badMatrix s m, .operandRange) :: (c, e) :: rest)
    (hc : ConfigOk s) (hm : MatrixOk s m) (hbad : c ≠ false) : exec i s = .next (s.failedWith e.code) := by
  refine exec_failedWith ?_
  rw [hi, (badConfig_eq_false s).2 hc, firstError_false, (badMatrix_eq_false s m).2 hm,
    firstError_false, Bool.eq_true_of_not_eq_false hbad, firstError_true]

/-- DET and ADJ run past their checks exactly on a legal key. -/
theorem firstError_det_eq_none (s : State) (m : MatSel) :
    firstError (checksOf (.det m) s) = none ↔ ConfigOk s ∧ MatrixOk s m := by
  simp [checksOf, firstError_eq_none, badConfig_eq_false, badMatrix_eq_false]

/-- INV runs past its checks exactly on a legal key whose determinant is coprime to M. -/
theorem firstError_inv_eq_none (s : State) (d m : MatSel) :
    firstError (checksOf (.inv d m) s) = none ↔
      ConfigOk s ∧ MatrixOk s m ∧ Nat.gcd (keyDet s m) s.M = 1 := by
  simp [checksOf, firstError_eq_none, badConfig_eq_false, badMatrix_eq_false, singular_eq_false]

/-- MATVEC runs past its checks exactly on a legal key and a legal vector. -/
theorem firstError_matvec_eq_none (s : State) (m : MatSel) :
    firstError (checksOf (.matvec m) s) = none ↔ ConfigOk s ∧ MatrixOk s m ∧ VectorOk s := by
  simp [checksOf, firstError_eq_none, badConfig_eq_false, badMatrix_eq_false, badVector_eq_false]

/-! ### DET -/

/-- Settles O17: two checks, then RES holds the determinant as the claims speak of it. -/
theorem detLeavesDeterminant : Obligations.DetLeavesDeterminant := by
  refine fun s m => ⟨by cases m <;> rfl, exec_badConfig rfl, exec_badMatrix rfl, fun hc hm => ?_⟩
  rw [detMod_eq]
  exact exec_succeeded ((firstError_det_eq_none s m).2 ⟨hc, hm⟩)

/-! ### ADJ -/

/-- An entry that ADJ writes, as the claims speak of it (R124). -/
theorem adjugateEntry_mod_eq (s : State) (m : MatSel) {i j : Nat} (hi : i < s.N) (hj : j < s.N) :
    (adjugateEntry s m i j % (s.M : ℤ)).toNat = keyAdj s m i j := by
  rw [adjugateEntry_eq s m hi hj]
  rfl

/-- Settles O18: the checks of DET, then the entries of `withTopLeft`, from the matrix before the command. -/
theorem adjLeavesAdjugate : Obligations.AdjLeavesAdjugate := by
  refine fun s d m => ⟨by cases d <;> cases m <;> rfl, exec_badConfig rfl, exec_badMatrix rfl,
    fun hc hm => ⟨withTopLeft (s.mat d) s.N (keyAdj s m),
      exec_succeeded (i := .adj d m) ((firstError_det_eq_none s m).2 ⟨hc, hm⟩), fun i j => ?_⟩⟩
  rw [withTopLeft_get]
  split
  · next hij => rw [adjugateEntry_mod_eq s m hij.1 hij.2]
  · rfl

/-! ### INV -/

/-- `invMod` gives the inverse of the determinant of a successful INV (R127). -/
theorem isDetInverse_invMod {s : State} {m : MatSel} (hM : 2 ≤ s.M)
    (hg : Nat.gcd (keyDet s m) s.M = 1) : IsDetInverse s m (invMod (keyDet s m) s.M) := by
  have hpos : 0 < s.M := by omega
  have hlt : keyDet s m < s.M := residue_lt _ hpos
  refine ⟨invMod_lt _ hpos, ?_⟩
  rw [detMod_eq]
  exact mul_invMod hM (by rwa [Nat.mod_eq_of_lt hlt])

/-- Settles O19: three checks, then the determinant in RES and the entries of `withTopLeft`, from the matrix
before the command. -/
theorem invLeavesScaledAdjugate : Obligations.InvLeavesScaledAdjugate := by
  intro s d m
  rw [detMod_eq]
  refine ⟨by cases d <;> cases m <;> rfl, exec_badConfig rfl, exec_badMatrix rfl,
    fun hc hm hg => exec_thirdCheck (i := .inv d m) (e := .notInvertible) rfl hc hm
      (mt (singular_eq_false s m).1 hg),
    fun hc hm hg => ⟨invMod (keyDet s m) s.M, withTopLeft (s.mat d) s.N (keyInv s m),
      isDetInverse_invMod hc.1 hg,
      exec_succeeded (i := .inv d m) ((firstError_inv_eq_none s d m).2 ⟨hc, hm, hg⟩), fun i j => ?_⟩⟩
  rw [withTopLeft_get]
  split
  · next hij => rw [inverseEntry_eq s m hij.1 hij.2]
  · rfl

/-! ### MATVEC -/

/-- An entry of VOUT that MATVEC writes is the row sum of R130. -/
theorem matVecMod_key {s : State} (m : MatSel) {i : Nat} (hi : i < s.N) :
    (matVecMod s.M (keyRows s m) (vinList s)).getD i 0 =
      (∑ j ∈ Finset.range s.N, s.entry m i j * s.vinAt j) % s.M :=
  matVecMod_tab (s.entry m) s.vinAt hi

/-- Settles O22: three checks, then the entries of `withFirst`. -/
theorem matvecLeavesProduct : Obligations.MatvecLeavesProduct := by
  refine fun s m => ⟨by cases m <;> rfl, exec_badConfig rfl, fun hc hbad => ?_,
    fun hc hm hv => ⟨_, exec_succeeded ((firstError_matvec_eq_none s m).2 ⟨hc, hm, hv⟩), fun i => ?_⟩⟩
  · by_cases hm : MatrixOk s m
    · have hv : ¬VectorOk s := hbad.resolve_left (not_not_intro hm)
      exact exec_thirdCheck (i := .matvec m) (e := .operandRange) rfl hc hm (mt (badVector_eq_false s).1 hv)
    · exact exec_badMatrix rfl hc hm
  · rw [withFirst_get]
    split
    · next hi => rw [matVecMod_key m hi]
    · rfl

end Sys2Proof.Machine
end

section
/-! The result of INV is the inverse modulo M (R126), and what follows for INV and MATVEC (R127, R131). A table
of residues is a matrix over the integers modulo M, and the facts are those of matrices over that ring. -/

namespace Sys2Proof.Machine

/-! ### Tables modulo M as matrices -/

/-- The N x N matrix over the integers modulo M of a table of numbers. -/
def modMatrix (M N : Nat) (f : Nat → Nat → Nat) : Matrix (Fin N) (Fin N) (ZMod M) :=
  fun i j => (f i.val j.val : ZMod M)

/-- The vector over the integers modulo M of the first N numbers of a sequence. -/
def modVector (M N : Nat) (v : Nat → Nat) : Fin N → ZMod M := fun k => (v k.val : ZMod M)

/-- A row sum of R126 and R130 is a sum over the indices of the matrix. -/
theorem cast_rowSum (M N : Nat) (f g : Nat → Nat) :
    ((∑ j ∈ Finset.range N, f j * g j : Nat) : ZMod M) =
      ∑ j : Fin N, (f j.val : ZMod M) * (g j.val : ZMod M) := by
  push_cast
  exact (Fin.sum_univ_eq_sum_range (fun j => (f j : ZMod M) * (g j : ZMod M)) N).symm

/-- The equations of R126 say that a product of matrices is the identity. -/
theorem modMatrix_mul_eq_one_iff {M : Nat} (hM : 2 ≤ M) (N : Nat) (f g : Nat → Nat → Nat) :
    modMatrix M N f * modMatrix M N g = 1 ↔
      ∀ i < N, ∀ k < N, (∑ j ∈ Finset.range N, f i j * g j k) % M = if i = k then 1 else 0 := by
  have hentry : ∀ i k : Fin N,
      (modMatrix M N f * modMatrix M N g) i k = (1 : Matrix (Fin N) (Fin N) (ZMod M)) i k ↔
        (∑ j ∈ Finset.range N, f i j * g j k) % M = if i.val = k.val then 1 else 0 := fun i k => by
    have hmul : (modMatrix M N f * modMatrix M N g) i k =
        ((∑ j ∈ Finset.range N, f i j * g j k : Nat) : ZMod M) :=
      (cast_rowSum M N (f i) (g · k)).symm
    have hone : (1 : Matrix (Fin N) (Fin N) (ZMod M)) i k =
        ((if i.val = k.val then 1 else 0 : Nat) : ZMod M) := by
      simp [Matrix.one_apply, Fin.ext_iff]
    have hlt : (if i.val = k.val then 1 else 0) < M := by split <;> omega
    rw [hmul, hone, ZMod.natCast_eq_natCast_iff', Nat.mod_eq_of_lt hlt]
  rw [← Matrix.ext_iff]
  exact ⟨fun h i hi k hk => (hentry ⟨i, hi⟩ ⟨k, hk⟩).1 (h ⟨i, hi⟩ ⟨k, hk⟩),
    fun h i k => (hentry i k).2 (h i i.isLt k k.isLt)⟩

/-- A number below M is determined by its class modulo M. -/
theorem eq_of_cast_eq {M a b : Nat} (ha : a < M) (hb : b < M) (h : (a : ZMod M) = (b : ZMod M)) :
    a = b := by
  rwa [ZMod.natCast_eq_natCast_iff', Nat.mod_eq_of_lt ha, Nat.mod_eq_of_lt hb] at h

/-- A table of residues is determined by its matrix. -/
theorem eq_of_modMatrix_eq {M N : Nat} {f g : Nat → Nat → Nat} (hf : ∀ i < N, ∀ k < N, f i k < M)
    (hg : ∀ i < N, ∀ k < N, g i k < M) (h : modMatrix M N f = modMatrix M N g) {i k : Nat} (hi : i < N)
    (hk : k < N) : f i k = g i k :=
  eq_of_cast_eq (hf i hi k hk) (hg i hi k hk) (congrFun (congrFun h ⟨i, hi⟩) ⟨k, hk⟩)

/-- Tables with the same entries have the same matrix. -/
theorem modMatrix_congr {M N : Nat} {f g : Nat → Nat → Nat} (h : ∀ i < N, ∀ k < N, f i k = g i k) :
    modMatrix M N f = modMatrix M N g :=
  funext fun i => funext fun k => congrArg Nat.cast (h i i.isLt k k.isLt)

/-- The product with an inverse undoes a product reduced modulo M (R131). -/
theorem rowSum_rowSum_inverse {M N : Nat} {f g : Nat → Nat → Nat} {v : Nat → Nat}
    (hfg : modMatrix M N f * modMatrix M N g = 1) (hv : ∀ j < N, v j < M) {i : Nat} (hi : i < N) :
    (∑ j ∈ Finset.range N, f i j * ((∑ k ∈ Finset.range N, g j k * v k) % M)) % M = v i := by
  have hM : 0 < M := (Nat.zero_le _).trans_lt (hv i hi)
  have hinner : ∀ j : Fin N, (((∑ k ∈ Finset.range N, g j k * v k) % M : Nat) : ZMod M) =
      (modMatrix M N g).mulVec (modVector M N v) j := fun j => by
    rw [ZMod.natCast_mod]
    exact cast_rowSum M N (g j) v
  have hcancel : (modMatrix M N f).mulVec ((modMatrix M N g).mulVec (modVector M N v)) =
      modVector M N v := by
    rw [Matrix.mulVec_mulVec, hfg, Matrix.one_mulVec]
  refine eq_of_cast_eq (Nat.mod_lt _ hM) (hv i hi) ?_
  rw [ZMod.natCast_mod, cast_rowSum]
  simp only [hinner]
  exact congrFun hcancel ⟨i, hi⟩

/-! ### The key and its inverse modulo M -/

/-- `residue` keeps the class modulo M. -/
theorem residue_cast_zmod (a : Int) {M : Nat} (hM : 0 < M) :
    ((residue a M : Nat) : ZMod M) = (a : ZMod M) := by
  rw [← ZMod.intCast_mod a M, ← residue_cast a hM, Int.cast_natCast]

/-- A legal modulus is positive. -/
theorem M_pos_of_configOk {s : State} (hc : ConfigOk s) : 0 < s.M := Nat.zero_lt_of_lt hc.1

/-- The key modulo M is the integer matrix of the key, reduced. -/
theorem modMatrix_entry (s : State) (m : MatSel) :
    modMatrix s.M s.N (s.entry m) = (toMatrix s.N (keyInts s m)).map (Int.castRingHom (ZMod s.M)) := by
  rw [toMatrix_keyInts]
  funext i j
  exact (Int.cast_natCast _).symm

/-- `keyDet` is the determinant of the key modulo M. -/
theorem det_modMatrix_entry {s : State} (m : MatSel) (hM : 0 < s.M) :
    (modMatrix s.M s.N (s.entry m)).det = (keyDet s m : ZMod s.M) := by
  rw [keyDet, residue_cast_zmod _ hM, det_eq_matrixDet, modMatrix_entry]
  exact (RingHom.map_det (Int.castRingHom (ZMod s.M)) _).symm

/-- `keyInv` is the adjugate of the key modulo M, scaled. -/
theorem modMatrix_keyInv {s : State} (m : MatSel) (hM : 0 < s.M) : modMatrix s.M s.N (keyInv s m) =
    (invMod (keyDet s m) s.M : ZMod s.M) • (modMatrix s.M s.N (s.entry m)).adjugate := by
  rw [modMatrix_entry, ← RingHom.mapMatrix_apply, ← RingHom.map_adjugate]
  funext i j
  rw [modMatrix, keyInv, residue_cast_zmod _ hM, adjEntry_eq_adjugate, Int.cast_mul, Int.cast_natCast]
  rfl

/-- The scaled adjugate inverts the key modulo M (R126, R127). -/
theorem entry_mul_keyInv {s : State} {m : MatSel} (hM : 2 ≤ s.M) (hg : Nat.gcd (keyDet s m) s.M = 1) :
    modMatrix s.M s.N (s.entry m) * modMatrix s.M s.N (keyInv s m) = 1 := by
  have hpos : 0 < s.M := by omega
  have hinv : (invMod (keyDet s m) s.M : ZMod s.M) * (keyDet s m : ZMod s.M) = 1 := by
    have hmod := (isDetInverse_invMod hM hg).2
    rw [detMod_eq] at hmod
    rw [mul_comm, ← Nat.cast_mul, ← ZMod.natCast_mod, hmod, Nat.cast_one]
  rw [modMatrix_keyInv m hpos, Matrix.mul_smul, Matrix.mul_adjugate, det_modMatrix_entry m hpos, smul_smul,
    hinv, one_smul]

/-- A key with an inverse modulo M has a determinant that is coprime to M (R126). -/
theorem gcd_keyDet_of_mul_eq_one {s : State} {m : MatSel} (hM : 0 < s.M)
    {B : Matrix (Fin s.N) (Fin s.N) (ZMod s.M)} (h : modMatrix s.M s.N (s.entry m) * B = 1) :
    Nat.gcd (keyDet s m) s.M = 1 := by
  have hdet := Matrix.isUnit_det_of_right_inverse h
  rwa [det_modMatrix_entry m hM, ZMod.isUnit_iff_coprime] at hdet

theorem keyInv_lt {s : State} (m : MatSel) (hM : 0 < s.M) (i j : Nat) : keyInv s m i j < s.M :=
  residue_lt _ hM

/-! ### The state that INV leaves -/

/-- An entry of a matrix register depends on that register only. -/
theorem entry_of_mat_eq {s t : State} {m : MatSel} (h : t.mat m = s.mat m) (i j : Nat) :
    t.entry m i j = s.entry m i j := by
  rw [State.entry, h, State.entry]

/-- A replaced entry of a matrix register reads as the number it was made from. -/
theorem entry_withTopLeft {t : State} {d : MatSel} {old : MatReg} {N : Nat} {f : Nat → Nat → Nat}
    (h : t.mat d = withTopLeft old N f) (hN : N ≤ 16) {i j : Nat} (hi : i < N) (hj : j < N)
    (hf : f i j < 2 ^ 16) : t.entry d i j = f i j := by
  have hlt : i < 16 ∧ j < 16 := by omega
  have hget := withTopLeft_get old N f ⟨i, hlt.1⟩ ⟨j, hlt.2⟩
  rw [if_pos ⟨hi, hj⟩] at hget
  rw [State.entry, dif_pos hlt, h]
  exact (congrArg BitVec.toNat hget).trans ((BitVec.toNat_ofNat _ _).trans (Nat.mod_eq_of_lt hf))

/-- What a successful INV says of its key and leaves in its destination. -/
structure Inverted (d m : MatSel) (s t : State) : Prop where
  config : ConfigOk s
  matrix : MatrixOk s m
  coprime : Nat.gcd (keyDet s m) s.M = 1
  modulus : t.M = s.M
  dimension : t.N = s.N
  vector : t.vin = s.vin
  source : d ≠ m → t.mat m = s.mat m
  entries : ∀ i < s.N, ∀ j < s.N, t.entry d i j = keyInv s m i j

/-- The state after INV of a legal invertible key. -/
theorem inverted_commitOf {s : State} (d : MatSel) {m : MatSel} (hc : ConfigOk s) (hm : MatrixOk s m)
    (hg : Nat.gcd (keyDet s m) s.M = 1) : Inverted d m s (commitOf (.inv d m) s).succeeded where
  config := hc
  matrix := hm
  coprime := hg
  modulus := M_congr (setMat_modulus s d _)
  dimension := N_congr (setMat_dim s d _)
  vector := setMat_vin s d _
  source hdm := (completeOk_mat _ m).trans
    (commitOf_mat (i := .inv d m) (fun h => hdm (Option.some.inj h)) s)
  entries i hi j hj := by
    have hlt := keyInv_lt m (M_pos_of_configOk hc) i j
    obtain ⟨-, hM, -, hN⟩ := hc
    refine entry_withTopLeft (old := s.mat d) ?_ hN hi hj (by omega)
    exact (completeOk_mat (commitOf (.inv d m) s) d).trans (mat_setMat_same s d _)

/-- INV of a legal invertible key succeeds (R127). -/
theorem exec_inv_inverted {s : State} (d : MatSel) {m : MatSel} (hc : ConfigOk s) (hm : MatrixOk s m)
    (hg : Nat.gcd (keyDet s m) s.M = 1) :
    ∃ t, exec (.inv d m) s = .next t ∧ t.errcode = 0 ∧ Inverted d m s t :=
  ⟨_, exec_succeeded ((firstError_inv_eq_none s d m).2 ⟨hc, hm, hg⟩), rfl, inverted_commitOf d hc hm hg⟩

/-- INV without an error is INV of a legal invertible key. -/
theorem inverted_of_exec {s t : State} {d m : MatSel} (h : exec (.inv d m) s = .next t)
    (ht : t.errcode = 0) : Inverted d m s t := by
  obtain ⟨e, -, rfl⟩ | ⟨hpass, rfl⟩ := exec_cases h
  · exact absurd ht (code_ne_zero e)
  · obtain ⟨hc, hm, hg⟩ := (firstError_inv_eq_none s d m).1 hpass
    exact inverted_commitOf d hc hm hg

section
variable {s t : State} {d m : MatSel} (h : Inverted d m s t)
include h

/-- The key times the result is the identity modulo M (R126). -/
theorem Inverted.key_mul_result : modMatrix s.M s.N (s.entry m) * modMatrix s.M s.N (t.entry d) = 1 := by
  rw [modMatrix_congr h.entries]
  exact entry_mul_keyInv h.config.1 h.coprime

/-- The result times the key is the identity modulo M. -/
theorem Inverted.result_mul_key : modMatrix s.M s.N (t.entry d) * modMatrix s.M s.N (s.entry m) = 1 :=
  mul_eq_one_comm.1 h.key_mul_result

theorem Inverted.entry_lt : ∀ i < s.N, ∀ j < s.N, t.entry d i j < s.M := fun i hi j hj =>
  (h.entries i hi j hj).trans_lt (keyInv_lt m (M_pos_of_configOk h.config) i j)

/-- The result is the only table of residues that inverts the key (R126). -/
theorem Inverted.unique {B : Nat → Nat → Nat} (hB : ∀ i < s.N, ∀ k < s.N, B i k < s.M)
    (hmul : modMatrix s.M s.N (s.entry m) * modMatrix s.M s.N B = 1) {i k : Nat} (hi : i < s.N)
    (hk : k < s.N) : B i k = t.entry d i k :=
  eq_of_modMatrix_eq hB h.entry_lt (left_inv_eq_right_inv h.result_mul_key hmul).symm hi hk

theorem Inverted.configOk : ConfigOk t := by
  rw [ConfigOk, h.modulus, h.dimension]
  exact h.config

theorem Inverted.matrixOk : MatrixOk t d := by
  rw [MatrixOk, h.modulus, h.dimension]
  exact h.entry_lt

/-- The result of INV is invertible: its determinant is coprime to M. -/
theorem Inverted.result_coprime : Nat.gcd (keyDet t d) t.M = 1 := by
  have hmul := h.result_mul_key
  rw [← h.modulus, ← h.dimension] at hmul
  exact gcd_keyDet_of_mul_eq_one (M_pos_of_configOk h.configOk) hmul

end

/-! ### The claims on INV -/

/-- Settles O20: in matrices modulo M, the scaled adjugate is a right inverse of the key, and so the only one. -/
theorem invGivesModularInverse : Obligations.InvGivesModularInverse := by
  intro s t d m h ht
  have hinv := inverted_of_exec h ht
  have hiff := modMatrix_mul_eq_one_iff hinv.config.1 s.N (s.entry m)
  exact ⟨(hiff _).1 hinv.key_mul_result, fun B hB hmul i hi k hk => hinv.unique hB ((hiff B).2 hmul) hi hk⟩

/-- Settles O21: the result is a legal invertible key, and the key is a table of residues that inverts it. -/
theorem invTwiceGivesBackTheKey : Obligations.InvTwiceGivesBackTheKey := by
  intro s t d m h ht
  have hinv := inverted_of_exec h ht
  obtain ⟨u, hu, hu0, hback⟩ := exec_inv_inverted m hinv.configOk hinv.matrixOk hinv.result_coprime
  have huniq := @hback.unique (B := s.entry m)
  rw [hinv.modulus, hinv.dimension] at huniq
  exact ⟨u, hu, hu0, fun i hi j hj => (huniq hinv.matrix hinv.result_mul_key hi hj).symm⟩

/-! ### MATVEC after INV -/

/-- An element of VIN depends on VIN only. -/
theorem vinAt_of_vin_eq {s t : State} (h : t.vin = s.vin) (j : Nat) : t.vinAt j = s.vinAt j := by
  rw [State.vinAt, h, State.vinAt]

/-- What a successful MATVEC keeps of the operands and leaves in VOUT. -/
structure Multiplied (m : MatSel) (s t : State) : Prop where
  modulus : t.M = s.M
  dimension : t.N = s.N
  matrices : ∀ d, t.mat d = s.mat d
  product : ∀ i : Fin 16, i.val < s.N →
    t.vout[i].toNat = (∑ j ∈ Finset.range s.N, s.entry m i.val j * s.vinAt j) % s.M

/-- MATVEC of a legal key and a legal vector succeeds (R130). -/
theorem exec_matvec_multiplied {s : State} {m : MatSel} (hc : ConfigOk s) (hm : MatrixOk s m)
    (hv : VectorOk s) : ∃ t, exec (.matvec m) s = .next t ∧ t.errcode = 0 ∧ Multiplied m s t := by
  have hexec := exec_succeeded ((firstError_matvec_eq_none s m).2 ⟨hc, hm, hv⟩)
  have hframe := exec_frame hexec
  refine ⟨_, hexec, rfl, M_congr (by rw [hframe]), N_congr (by rw [hframe]), fun d => ?_, fun i hi => ?_⟩
  · exact (completeOk_mat _ d).trans (commitOf_mat (i := .matvec m) nofun s)
  · have hlt : (∑ j ∈ Finset.range s.N, s.entry m i.val j * s.vinAt j) % s.M < s.M :=
      Nat.mod_lt _ (M_pos_of_configOk hc)
    have hget := withFirst_get s.vout s.N (fun i => (matVecMod s.M (keyRows s m) (vinList s)).getD i 0) i
    rw [if_pos hi, matVecMod_key m hi] at hget
    exact (congrArg BitVec.toNat hget).trans
      ((BitVec.toNat_ofNat _ _).trans (Nat.mod_eq_of_lt (by omega)))

/-- The state in which VOUT was copied into VIN, as R131 feeds one MATVEC to the next. -/
def State.reloaded (s : State) : State := { s with vin := s.vout }

theorem reloaded_mat (s : State) (m : MatSel) : s.reloaded.mat m = s.mat m := by cases m <;> rfl

/-- The result of MATVEC as the next vector: its elements are the row sums of R130. -/
theorem Multiplied.vinAt_reloaded {s t : State} {m : MatSel} (h : Multiplied m s t) (hN : s.N ≤ 16)
    {j : Nat} (hj : j < s.N) :
    t.reloaded.vinAt j = (∑ k ∈ Finset.range s.N, s.entry m j k * s.vinAt k) % s.M :=
  (dif_pos (by omega)).trans (h.product ⟨j, by omega⟩ hj)

/-- After INV into the other register, MATVEC with the key gives the product of the old key and vector. -/
theorem exec_matvec_after_inv {s t : State} {d m : MatSel} (hinv : Inverted d m s t) (hdm : d ≠ m)
    (hv : VectorOk s) : ∃ t1, exec (.matvec m) t = .next t1 ∧ t1.errcode = 0 ∧ Multiplied m t t1 ∧
      ∀ j < s.N, t1.reloaded.vinAt j =
        (∑ k ∈ Finset.range s.N, s.entry m j k * s.vinAt k) % s.M := by
  have hentry := entry_of_mat_eq (hinv.source hdm)
  have hvin := vinAt_of_vin_eq hinv.vector
  have hm : MatrixOk t m := by
    simpa only [MatrixOk, hentry, hinv.modulus, hinv.dimension] using hinv.matrix
  have hvt : VectorOk t := by
    simpa only [VectorOk, hvin, hinv.modulus, hinv.dimension] using hv
  obtain ⟨t1, ht1, herr, hmul⟩ := exec_matvec_multiplied hinv.configOk hm hvt
  refine ⟨t1, ht1, herr, hmul, fun j hj => ?_⟩
  obtain ⟨-, -, -, hN⟩ := hinv.configOk
  have hsum := hmul.vinAt_reloaded hN (hinv.dimension.symm ▸ hj)
  simpa only [hentry, hvin, hinv.modulus, hinv.dimension] using hsum

/-- Settles O23: the key and its inverse stand in different registers, so both products succeed, and the
product with the inverse cancels that with the key. -/
theorem matvecWithInverseUndoesMatvec : Obligations.MatvecWithInverseUndoesMatvec := by
  intro s d m hdm hc hm hv hg
  rw [detMod_eq] at hg
  obtain ⟨t, ht, herr, hinv⟩ := exec_inv_inverted d hc hm hg
  obtain ⟨t1, ht1, herr1, hmul1, hvin⟩ := exec_matvec_after_inv hinv hdm hv
  have hM : t1.reloaded.M = s.M := hmul1.modulus.trans hinv.modulus
  have hN : t1.reloaded.N = s.N := hmul1.dimension.trans hinv.dimension
  have hentry := entry_of_mat_eq ((reloaded_mat t1 d).trans (hmul1.matrices d))
  have hc1 : ConfigOk t1.reloaded := by rwa [ConfigOk, hM, hN]
  have hm1 : MatrixOk t1.reloaded d := by
    simpa only [MatrixOk, hentry, hM, hN] using hinv.entry_lt
  have hv1 : VectorOk t1.reloaded := by
    rw [VectorOk, hM, hN]
    exact fun j hj => hvin j hj ▸ Nat.mod_lt _ (M_pos_of_configOk hc)
  obtain ⟨t2, ht2, herr2, hmul2⟩ := exec_matvec_multiplied hc1 hm1 hv1
  refine ⟨t, t1, t2, ht, ht1, ht2, herr, herr1, herr2, fun i hi => BitVec.eq_of_toNat_eq ?_⟩
  have hsum := hmul2.product i (hN.symm ▸ hi)
  rw [hM, hN] at hsum
  calc t2.vout[i].toNat
    _ = (∑ j ∈ Finset.range s.N, t1.reloaded.entry d i j * t1.reloaded.vinAt j) % s.M := hsum
    _ = (∑ j ∈ Finset.range s.N,
          t.entry d i j * ((∑ k ∈ Finset.range s.N, s.entry m j k * s.vinAt k) % s.M)) % s.M := by
      congr 1
      exact Finset.sum_congr rfl fun j hj => by rw [hentry, hvin j (Finset.mem_range.1 hj)]
    _ = s.vinAt i := rowSum_rowSum_inverse hinv.result_mul_key hv hi
    _ = s.vin[i].toNat := dif_pos i.isLt

end Sys2Proof.Machine
end

section
/-! The block codec: the checks of PAD, UNPAD, ENC and DEC in their order, and the output of each byte by byte
(R140 to R153). -/

namespace Sys2Proof.Machine

/-! ### The checks in the terms of the claims -/

theorem badDim_iff (s : State) : badDim s = true ↔ ¬(1 ≤ s.N ∧ s.N ≤ 16) := by
  rw [← badDim_eq_false, Bool.not_eq_false]

theorem badConfig_iff (s : State) : badConfig s = true ↔ ¬ConfigOk s := by
  rw [ConfigOk, ← badConfig_eq_false, Bool.not_eq_false]

theorem badMatrix_iff (s : State) (m : MatSel) : badMatrix s m = true ↔ ¬MatrixOk s m := by
  rw [MatrixOk, ← badMatrix_eq_false, Bool.not_eq_false]

theorem singular_iff (s : State) (m : MatSel) :
    singular s m = true ↔ Nat.gcd (detMod s m) s.M ≠ 1 := by
  rw [detMod_eq, ne_eq, ← singular_eq_false, Bool.not_eq_false]

theorem badRegions_iff (s : State) (n : Nat) : badRegions s n = true ↔ ¬RegionsOk s n := by
  rw [← Bool.not_eq_false, badRegions_eq_false, RegionsOk]
  omega

/-! ### The padded input -/

theorem padLen_eq_padding (s : State) : padLen s.N s.len.toNat = padding s := rfl

/-- p fits a byte: DIM has five bits (R28, R144). -/
theorem padding_lt (s : State) : padding s < 256 := by
  have hN : s.N < 32 := s.dim.isLt
  rcases Nat.eq_zero_or_pos s.N with h0 | hpos
  · simp [padding, h0]
  · exact (padLen_lt _ hpos).trans (by omega)

theorem paddedByte_lt (s : State) (k : Nat) : paddedByte s (padding s) k < 256 := by
  unfold paddedByte
  split
  · exact BitVec.isLt _
  · exact padding_lt s

theorem toNat_paddedByte (s : State) (k : Nat) :
    (BitVec.ofNat 8 (paddedByte s (padding s) k)).toNat = paddedByte s (padding s) k := by
  rw [BitVec.toNat_ofNat, Nat.mod_eq_of_lt (paddedByte_lt s k)]

theorem ofNat_paddedByte (s : State) (p k : Nat) : BitVec.ofNat 8 (paddedByte s p k) =
    if k < s.len.toNat then s.bufByte (s.src.toNat + k) else BitVec.ofNat 8 p := by
  unfold paddedByte
  split
  · rw [BitVec.ofNat_toNat, BitVec.setWidth_eq]
  · rfl

/-- The PaddedBuffer, byte by byte (R144). -/
theorem paddedInput_bytes (s : State) : paddedInput s =
    (List.range (s.len.toNat + padding s)).map fun k => BitVec.ofNat 8 (paddedByte s (padding s) k) := by
  simp only [paddedInput_eq, padLen_eq_padding, ofNat_paddedByte]

theorem badSymbols_paddedInput_iff (s : State) : badSymbols s (paddedInput s) = true ↔
    ¬∀ k < s.len.toNat + padding s, paddedByte s (padding s) k < s.M := by
  rw [← Bool.not_eq_false, badSymbols_eq_false, paddedInput_bytes]
  simp [Nat.mod_eq_of_lt (paddedByte_lt s _)]

theorem badSymbols_inputBytes_iff (s : State) : badSymbols s (inputBytes s) = true ↔
    ¬∀ k < s.len.toNat, (s.bufByte (s.src.toNat + k)).toNat < s.M := by
  rw [← Bool.not_eq_false, badSymbols_eq_false, inputBytes_eq]
  simp

/-! ### The first error of each command -/

/-- The checks of PAD in their order (R144). -/
theorem firstError_pad (s : State) : firstError (checksOf .pad s) =
    if ¬(1 ≤ s.N ∧ s.N ≤ 16) then some .badConfig
    else if ¬RegionsOk s (s.len.toNat + padding s) then some .bufferRange
    else none := by
  simp only [checksOf, firstError_cons, firstError_nil, badDim_iff, padLen_eq_padding, badRegions_iff]

/-- The checks of UNPAD in their order (R146). -/
theorem firstError_unpad (s : State) : firstError (checksOf .unpad s) =
    if ¬RegionsOk s s.len.toNat then some .bufferRange
    else if s.len.toNat < lastInput s then some .corruptPadding
    else none := by
  simp only [checksOf, firstError_cons, firstError_nil, badRegions_iff, decide_eq_true_eq, lastInput_eq]

/-- The checks of ENC in their order (R149). -/
theorem firstError_enc (s : State) (m : MatSel) : firstError (checksOf (.enc m) s) =
    if ¬ConfigOk s then some .badConfig
    else if ¬RegionsOk s (s.len.toNat + padding s) then some .bufferRange
    else if ¬MatrixOk s m ∨ ¬∀ k < s.len.toNat + padding s, paddedByte s (padding s) k < s.M then
      some .operandRange
    else none := by
  simp only [checksOf, firstError_cons, firstError_nil, padLen_eq_padding, badConfig_iff,
    badRegions_iff, badMatrix_iff, badSymbols_paddedInput_iff, ite_or]

/-- The checks of DEC in their order (R153). -/
theorem firstError_dec (s : State) (m : MatSel) : firstError (checksOf (.dec m) s) =
    if ¬ConfigOk s then some .badConfig
    else if ¬RegionsOk s s.len.toNat then some .bufferRange
    else if ¬MatrixOk s m ∨ ¬∀ k < s.len.toNat, (s.bufByte (s.src.toNat + k)).toNat < s.M then
      some .operandRange
    else if Nat.gcd (detMod s m) s.M ≠ 1 then some .notInvertible
    else if s.len.toNat % s.N ≠ 0 then some .invalidBlockAlignment
    else if s.len.toNat < padByte (plainBytes s m) then some .corruptPadding
    else none := by
  simp only [checksOf, firstError_cons, firstError_nil, badConfig_iff, badRegions_iff, badMatrix_iff,
    badSymbols_inputBytes_iff, singular_iff, bne_iff_ne, decide_eq_true_eq, ite_or]

/-! ### What a codec command leaves -/

section
variable {s : State} {out : List Byte} {n p : Nat} {f : Nat → Nat}
  (hout : out = (List.range n).map fun k => BitVec.ofNat 8 (f k))
include hout

/-- The commit of a codec command leaves its output, given byte by byte (R47). -/
theorem codecDone_commitCodec : s.codecDone (commitCodec out p s).succeeded n p f := by
  have hlen : out.length = n := by simp [hout]
  have hbuf : ∀ x, (commitCodec out p s).succeeded.bufByte x = (memWrite s s.dst.toNat out).bufByte x :=
    fun _ => rfl
  refine ⟨?_, fun k hk => ?_, fun x hx => ?_⟩
  · rw [← hlen]
    rfl
  · rw [hbuf, bufByte_memWrite, dif_pos (by omega)]
    simp [hout]
  · rw [hbuf]
    exact bufByte_memWrite_outside s (hlen.symm ▸ hx)

/-- A codec command whose checks pass leaves its output, given byte by byte (R47). -/
theorem exec_codecDone {i : Instr} (hpass : firstError (checksOf i s) = none)
    (hi : commitOf i s = commitCodec out p s) : ∃ t, exec i s = .next t ∧ s.codecDone t n p f :=
  ⟨_, exec_succeeded hpass, hi ▸ codecDone_commitCodec hout⟩

end

/-- The first elements of a list made from a function. -/
theorem take_map_range {α : Type} {k n : Nat} (h : k ≤ n) (g : Nat → α) :
    ((List.range n).map g).take k = (List.range k).map g := by
  rw [← List.map_take, List.take_range, Nat.min_eq_left h]

/-! ### PAD and UNPAD -/

/-- Settles O24: two checks, then the PaddedBuffer byte by byte. -/
theorem padAppendsPadding : Obligations.PadAppendsPadding := by
  refine fun s => ⟨rfl, fun hN => exec_failedWith (e := .badConfig) ?_,
    fun h1 h16 hr => exec_failedWith (e := .bufferRange) ?_,
    fun h1 h16 hr => exec_codecDone (paddedInput_bytes s) ?_ rfl⟩
  · rw [firstError_pad, if_pos hN]
  · rw [firstError_pad, if_neg (not_not_intro ⟨h1, h16⟩), if_pos hr]
  · rw [firstError_pad, if_neg (not_not_intro ⟨h1, h16⟩), if_neg (not_not_intro hr)]

/-- The first bytes of the input, byte by byte. -/
theorem inputBytes_take (s : State) {k : Nat} (hk : k ≤ s.len.toNat) : (inputBytes s).take k =
    (List.range k).map fun j => BitVec.ofNat 8 (s.bufByte (s.src.toNat + j)).toNat := by
  simp only [inputBytes_eq, take_map_range hk, BitVec.ofNat_toNat, BitVec.setWidth_eq]

/-- Settles O25: two checks, then the first bytes of the input. -/
theorem unpadStripsPadding : Obligations.UnpadStripsPadding := by
  refine fun s => ⟨rfl, fun hr => exec_failedWith (e := .bufferRange) ?_,
    fun hr hp => exec_failedWith (e := .corruptPadding) ?_,
    fun hr hp => exec_codecDone (inputBytes_take s (Nat.sub_le _ _)) ?_ ?_⟩
  · rw [firstError_unpad, if_pos hr]
  · rw [firstError_unpad, if_neg (not_not_intro hr), if_pos hp]
  · rw [firstError_unpad, if_neg (not_not_intro hr), if_neg hp.not_gt]
  · rw [lastInput_eq]
    rfl

/-! ### ENC -/

/-- The ciphertext in the terms of the claims (R149). -/
theorem cipherBytes_bytes {s : State} (m : MatSel) (hN : 0 < s.N) : cipherBytes s m =
    (List.range (s.len.toNat + padding s)).map fun k =>
      BitVec.ofNat 8 (cipherByte s m (padding s) k) := by
  rw [cipherBytes_eq m hN]
  refine List.map_congr_left fun k _ => ?_
  unfold cipherByte
  congr 2
  exact Finset.sum_congr rfl fun j _ => by
    rw [← toNat_paddedByte, ofNat_paddedByte, padLen_eq_padding]

/-- A legal dimension is positive. -/
theorem N_pos_of_configOk {s : State} (hc : ConfigOk s) : 0 < s.N := by
  obtain ⟨-, -, hN, -⟩ := hc
  exact hN

/-- ENC runs past its checks exactly on a legal configuration, key, regions and symbols. -/
theorem firstError_enc_eq_none (s : State) (m : MatSel) : firstError (checksOf (.enc m) s) = none ↔
    ConfigOk s ∧ RegionsOk s (s.len.toNat + padding s) ∧ MatrixOk s m ∧
      ∀ k < s.len.toNat + padding s, paddedByte s (padding s) k < s.M := by
  rw [firstError_enc]
  split_ifs <;> tauto

/-- Settles O26: three errors in order, then the ciphertext byte by byte. -/
theorem encTransformsEveryBlock : Obligations.EncTransformsEveryBlock := by
  refine fun s m => ⟨by cases m <;> rfl, exec_badConfig rfl,
    fun hc hr => exec_failedWith (e := .bufferRange) ?_,
    fun hc hr hbad => exec_failedWith (e := .operandRange) ?_,
    fun hc hr hm hs => ⟨padLen_aligned _ (N_pos_of_configOk hc),
      exec_codecDone (cipherBytes_bytes m (N_pos_of_configOk hc))
        ((firstError_enc_eq_none s m).2 ⟨hc, hr, hm, hs⟩) rfl⟩⟩
  · rw [firstError_enc, if_neg (not_not_intro hc), if_pos hr]
  · rw [firstError_enc, if_neg (not_not_intro hc), if_neg (not_not_intro hr), if_pos hbad]

/-! ### DEC -/

/-- The plaintext before unpadding in the terms of the claims (R152). -/
theorem plainBytes_bytes {s : State} (m : MatSel) (hN : 0 < s.N) (ha : s.len.toNat % s.N = 0) :
    plainBytes s m = (List.range s.len.toNat).map fun k =>
      BitVec.ofNat 8 (plainByte s m (invMod (keyDet s m) s.M) k) := by
  rw [plainBytes_eq m hN ha]
  refine List.map_congr_left fun k _ => ?_
  unfold plainByte
  congr 2
  exact Finset.sum_congr rfl fun j hj => by
    rw [inverseEntry_eq s m (Nat.mod_lt _ hN) (Finset.mem_range.1 hj)]

section
variable {s : State} {m : MatSel} (hc : ConfigOk s) (hr : RegionsOk s s.len.toNat) (hm : MatrixOk s m)
  (hs : ∀ k < s.len.toNat, (s.bufByte (s.src.toNat + k)).toNat < s.M)
include hc hr hm hs

/-- On a legal configuration, key, regions and symbols three checks of DEC are left (R153). -/
theorem firstError_dec_operandsOk : firstError (checksOf (.dec m) s) =
    if Nat.gcd (detMod s m) s.M ≠ 1 then some .notInvertible
    else if s.len.toNat % s.N ≠ 0 then some .invalidBlockAlignment
    else if s.len.toNat < padByte (plainBytes s m) then some .corruptPadding
    else none := by
  have hok : ¬(¬MatrixOk s m ∨ ¬∀ k < s.len.toNat, (s.bufByte (s.src.toNat + k)).toNat < s.M) :=
    not_or.2 ⟨not_not_intro hm, not_not_intro hs⟩
  rw [firstError_dec, if_neg (not_not_intro hc), if_neg (not_not_intro hr), if_neg hok]

/-- With an invertible key and an aligned input the check of the padding is left (R153). -/
theorem firstError_dec_aligned (hg : Nat.gcd (detMod s m) s.M = 1) (ha : s.len.toNat % s.N = 0) :
    firstError (checksOf (.dec m) s) =
      if s.len.toNat < padByte (plainBytes s m) then some .corruptPadding else none := by
  rw [firstError_dec_operandsOk hc hr hm hs, if_neg (not_not_intro hg), if_neg (not_not_intro ha)]

end

/-- Settles O27: five errors in order, then the first bytes of the plaintext or the error of its padding. -/
theorem decTransformsAndUnpads : Obligations.DecTransformsAndUnpads := by
  refine fun s m => ⟨by cases m <;> rfl, exec_badConfig rfl,
    fun hc hr => exec_failedWith (e := .bufferRange) ?_,
    fun hc hr hbad => exec_failedWith (e := .operandRange) ?_,
    fun hc hr hm hs hg => exec_failedWith (e := .notInvertible) ?_,
    fun hc hr hm hs hg ha => exec_failedWith (e := .invalidBlockAlignment) ?_,
    fun hc hr hm hs hg ha =>
      ⟨invMod (keyDet s m) s.M, isDetInverse_invMod hc.1 (detMod_eq s m ▸ hg), ?_⟩⟩
  · rw [firstError_dec, if_neg (not_not_intro hc), if_pos hr]
  · rw [firstError_dec, if_neg (not_not_intro hc), if_neg (not_not_intro hr), if_pos hbad]
  · rw [firstError_dec_operandsOk hc hr hm hs, if_pos hg]
  · rw [firstError_dec_operandsOk hc hr hm hs, if_neg (not_not_intro hg), if_pos ha]
  · have haligned := firstError_dec_aligned hc hr hm hs hg ha
    have hN := N_pos_of_configOk hc
    have hM := M_pos_of_configOk hc
    obtain ⟨-, hM256, -, -⟩ := hc
    rw [lastPlain_eq m hN hM hM256 ha]
    refine ⟨fun hp => exec_failedWith (e := .corruptPadding) ?_, fun hp => exec_codecDone ?_ ?_ rfl⟩
    · rw [haligned, if_pos hp]
    · rw [plainBytes_bytes m hN ha, take_map_range (Nat.sub_le _ _)]
    · rw [haligned, if_neg hp.not_gt]

end Sys2Proof.Machine
end

section
/-! DEC undoes ENC (R154): the plaintext of the ciphertext is the PaddedBuffer, and its last byte says how much
of it DEC keeps. -/

namespace Sys2Proof.Machine

/-! ### The transform by the inverse key -/

/-- The transform by a matrix undoes the transform by its inverse modulo M, for bytes below M. -/
theorem transformBlocks_inverse {M N n : Nat} {f g : Nat → Nat → Nat} {b : Nat → Byte} (hN : 0 < N)
    (hM : M ≤ 256) (hn : n % N = 0) (hfg : modMatrix M N f * modMatrix M N g = 1)
    (hb : ∀ x < n, (b x).toNat < M) :
    transformBlocks N M (tab N f) (n / N)
      (transformBlocks N M (tab N g) (n / N) ((List.range n).map b)) = (List.range n).map b := by
  rw [transformBlocks_map hN hn g, transformBlocks_map hN hn f]
  refine List.map_congr_left fun x hx => BitVec.eq_of_toNat_eq ?_
  have hx := List.mem_range.1 hx
  have hMpos : 0 < M := (Nat.zero_le _).trans_lt (hb x hx)
  have hbyte : ∀ a, (BitVec.ofNat 8 (a % M)).toNat = a % M := fun a => by
    have hlt := Nat.mod_lt a hMpos
    rw [BitVec.toNat_ofNat, Nat.mod_eq_of_lt (by omega)]
  have hblock : ∀ j < N, (b (x / N * N + j)).toNat < M := fun j hj => hb _ <| by
    have hk : x / N < n / N := Nat.div_lt_div_of_lt_of_dvd (Nat.dvd_of_mod_eq_zero hn) hx
    calc x / N * N + j < (x / N + 1) * N := by rw [Nat.succ_mul]; omega
      _ ≤ n / N * N := Nat.mul_le_mul_right N hk
      _ ≤ n := Nat.div_mul_le_self n N
  have hcancel := rowSum_rowSum_inverse hfg hblock (Nat.mod_lt x hN)
  rw [Nat.div_add_mod'] at hcancel
  rw [hbyte, ← hcancel]
  congr 1
  refine Finset.sum_congr rfl fun j hj => ?_
  have hj := Finset.mem_range.1 hj
  have hmod : (x / N * N + j) % N = j := by rw [Nat.mul_add_mod_self_right, Nat.mod_eq_of_lt hj]
  have hdiv : (x / N * N + j) / N = x / N := by
    rw [Nat.add_comm, Nat.add_mul_div_right _ _ hN, Nat.div_eq_of_lt hj, Nat.zero_add]
  rw [hbyte, hmod, hdiv]

/-- The scaled adjugate is also a left inverse of the key modulo M. -/
theorem keyInv_mul_entry {s : State} {m : MatSel} (hM : 2 ≤ s.M) (hg : Nat.gcd (keyDet s m) s.M = 1) :
    modMatrix s.M s.N (keyInv s m) * modMatrix s.M s.N (s.entry m) = 1 :=
  mul_eq_one_comm.1 (entry_mul_keyInv hM hg)

theorem cipherBytes_length {s : State} (m : MatSel) (hN : 0 < s.N) :
    (cipherBytes s m).length = s.len.toNat + padding s := by
  rw [cipherBytes_bytes m hN, List.length_map, List.length_range]

/-! ### The state in which DEC finds the ciphertext -/

/-- The host moves SRC, DST and LEN to the output of ENC and to a free region (R154). -/
def State.redirected (s : State) (dst : BitVec 16) : State :=
  { s with src := s.dst, dst := dst, len := s.outlen }

section
variable {s t : State} {m : MatSel} (h : exec (.enc m) s = .next t) (ht : t.errcode = 0)
include h ht

/-- ENC without an error is ENC of legal operands, and it commits the ciphertext (R149). -/
theorem exec_enc_ok : t = (commitCodec (cipherBytes s m) (padding s) s).succeeded ∧ ConfigOk s ∧
    RegionsOk s (s.len.toNat + padding s) ∧ MatrixOk s m ∧
      ∀ k < s.len.toNat + padding s, paddedByte s (padding s) k < s.M := by
  obtain ⟨e, -, rfl⟩ | ⟨hpass, rfl⟩ := exec_cases h
  · exact absurd ht (code_ne_zero e)
  · exact ⟨rfl, (firstError_enc_eq_none s m).1 hpass⟩

end

/-- What DEC finds after a successful ENC: the same key, and the ciphertext as its input (R154). -/
structure Enciphered (m : MatSel) (s u : State) : Prop where
  config : ConfigOk s
  matrix : MatrixOk s m
  fits : s.len.toNat + padding s ≤ 65536
  symbols : ∀ k < s.len.toNat + padding s, paddedByte s (padding s) k < s.M
  key : sameKey u s m
  length : u.len.toNat = s.len.toNat + padding s
  input : inputBytes u = cipherBytes s m

theorem enciphered_redirected {s t : State} {m : MatSel} (h : exec (.enc m) s = .next t)
    (ht : t.errcode = 0) (dst : BitVec 16) : Enciphered m s (t.redirected dst) := by
  obtain ⟨rfl, hc, ⟨-, hdst, -⟩, hm, hs⟩ := exec_enc_ok h ht
  have hout := cipherBytes_length m (N_pos_of_configOk hc)
  have hlen : (commitCodec (cipherBytes s m) (padding s) s).outlen.toNat = (cipherBytes s m).length :=
    commitCodec_outlen_toNat (by omega) _ s
  refine ⟨hc, hm, by omega, hs, ⟨rfl, rfl, fun i _ j _ => entry_of_mat_eq (by cases m <;> rfl) i j⟩,
    hlen.trans hout, ?_⟩
  exact (congrArg (memRead (memWrite s s.dst.toNat (cipherBytes s m)) s.dst.toNat) hlen).trans
    (memRead_memWrite s s.dst.toNat (cipherBytes s m))

section
variable {s u : State} {m : MatSel} (h : Enciphered m s u)
include h

theorem Enciphered.configOk : ConfigOk u := by
  rw [ConfigOk, h.key.M_eq, h.key.N_eq]
  exact h.config

theorem Enciphered.N_pos : 0 < s.N := N_pos_of_configOk h.config

theorem Enciphered.matrixOk : MatrixOk u m := by
  intro i hi j hj
  rw [h.key.entry_eq i hi j hj, h.key.M_eq]
  rw [h.key.N_eq] at hi hj
  exact h.matrix i hi j hj

/-- The ciphertext consists of residues modulo M. -/
theorem Enciphered.symbolsOk : ∀ k < u.len.toNat, (u.bufByte (u.src.toNat + k)).toNat < u.M := by
  have hbytes : ∀ b ∈ inputBytes u, b.toNat < u.M := by
    rw [h.input, cipherBytes_bytes m h.N_pos, h.key.M_eq]
    intro b hb
    obtain ⟨k, -, rfl⟩ := List.mem_map.1 hb
    have hlt : cipherByte s m (padding s) k < s.M := Nat.mod_lt _ (M_pos_of_configOk h.config)
    exact (Nat.mod_le _ _).trans_lt hlt
  intro k hk
  exact hbytes _ (List.mem_map.2 ⟨k, List.mem_range.2 hk, rfl⟩)

/-- The ciphertext is aligned (R155). -/
theorem Enciphered.aligned : u.len.toNat % u.N = 0 := by
  rw [h.length, h.key.N_eq]
  exact padLen_aligned _ h.N_pos

/-- The plaintext of the ciphertext is the PaddedBuffer (R154). -/
theorem Enciphered.plainBytes_eq_paddedInput (hg : Nat.gcd (detMod s m) s.M = 1) :
    plainBytes u m = paddedInput s := by
  rw [detMod_eq] at hg
  obtain ⟨hM, hM256, -, -⟩ := h.config
  have hcancel := transformBlocks_inverse (b := fun k => BitVec.ofNat 8 (paddedByte s (padding s) k))
    h.N_pos hM256 (padLen_aligned s.len.toNat h.N_pos) (keyInv_mul_entry hM hg)
    fun x hx => (toNat_paddedByte s x).trans_lt (h.symbols x hx)
  rw [plainBytes, h.input, h.key.N_eq, h.key.M_eq, h.key.keyInv_eq, cipherBytes_length m h.N_pos,
    cipherBytes, paddedInput_length, keyRows, paddedInput_bytes]
  exact hcancel

end

/-! ### What unpadding leaves of the PaddedBuffer -/

theorem padding_eq_zero {s : State} (ha : s.len.toNat % s.N = 0) : padding s = 0 := by
  rw [padding, ha, Nat.sub_zero, Nat.mod_self]

theorem padding_pos {s : State} (hN : 0 < s.N) (ha : s.len.toNat % s.N ≠ 0) : 0 < padding s := by
  have hlt := Nat.mod_lt s.len.toNat hN
  rw [padding, Nat.mod_eq_of_lt (by omega)]
  omega

/-- The last byte of the PaddedBuffer of an unaligned input is the padding length. -/
theorem padByte_paddedInput_unaligned {s : State} (hN : 0 < s.N) (ha : s.len.toNat % s.N ≠ 0) :
    padByte (paddedInput s) = padding s := by
  have hpos := padding_pos hN ha
  rw [paddedInput_bytes, padByte_map, if_neg (by omega), toNat_paddedByte, paddedByte, if_neg (by omega)]

/-- The last byte of the PaddedBuffer of an aligned input is that of the input. -/
theorem padByte_paddedInput_aligned {s : State} (ha : s.len.toNat % s.N = 0) :
    padByte (paddedInput s) = lastInput s := by
  rw [lastInput_eq, paddedInput, padLen_eq_padding, padding_eq_zero ha, List.replicate_zero, List.append_nil]

/-- No more bytes than the input has are bytes of the input. -/
theorem paddedInput_take (s : State) {k : Nat} (hk : k ≤ s.len.toNat) : (paddedInput s).take k =
    (List.range k).map fun j => BitVec.ofNat 8 (s.bufByte (s.src.toNat + j)).toNat := by
  rw [paddedInput, List.take_append_of_le_length (by simpa using hk), inputBytes_take s hk]

section
variable {s u : State} {m : MatSel} (h : Enciphered m s u) (hg : Nat.gcd (detMod s m) s.M = 1)
  (hr : RegionsOk u u.len.toNat)
include h hg hr

/-- DEC of the ciphertext checks the last byte of the PaddedBuffer only. -/
theorem Enciphered.firstError_dec : firstError (checksOf (.dec m) u) =
    if s.len.toNat + padding s < padByte (paddedInput s) then some .corruptPadding else none := by
  have hgu : Nat.gcd (detMod u m) u.M = 1 := by
    rwa [detMod_eq, h.key.keyDet_eq, h.key.M_eq, ← detMod_eq]
  rw [firstError_dec_aligned h.configOk hr h.matrixOk h.symbolsOk hgu h.aligned, h.length,
    h.plainBytes_eq_paddedInput hg]

/-- DEC of the ciphertext gives back as much of the input as the last byte of the PaddedBuffer leaves. -/
theorem Enciphered.exec_dec {r : Nat} (hr' : r + padByte (paddedInput s) = s.len.toNat + padding s)
    (hrlen : r ≤ s.len.toNat) : ∃ v : State, exec (.dec m) u = .next v ∧ v.errcode = 0 ∧
      v.outlen.toNat = r ∧ ∀ x < r, v.bufByte (u.dst.toNat + x) = s.bufByte (s.src.toNat + x) := by
  have hpass : firstError (checksOf (.dec m) u) = none := by
    rw [h.firstError_dec hg hr, if_neg (by omega)]
  have hout : (plainBytes u m).take (u.len.toNat - padByte (plainBytes u m)) =
      (paddedInput s).take r := by
    rw [h.plainBytes_eq_paddedInput hg, h.length, ← hr', Nat.add_sub_cancel]
  obtain ⟨v, hv, hdone, hbytes, -⟩ := exec_codecDone (hout.trans (paddedInput_take s hrlen)) hpass rfl
  refine ⟨v, hv, (congrArg State.errcode hdone :), ?_, fun x hx => ?_⟩
  · have hfits := h.fits
    have houtlen : v.outlen = BitVec.ofNat 17 r := (congrArg State.outlen hdone :)
    rw [houtlen, BitVec.toNat_ofNat, Nat.mod_eq_of_lt (by omega)]
  · rw [hbytes x hx, BitVec.ofNat_toNat, BitVec.setWidth_eq]

end

/-- Settles O28: DEC unpads the PaddedBuffer; its last byte is p for unaligned data, else that of the data. -/
theorem decUndoesEnc : Obligations.DecUndoesEnc := by
  intro s t m dst2 hg ht herr k u q hr
  have h : Enciphered m s u := enciphered_redirected ht herr dst2
  refine ⟨fun hcase => h.exec_dec hg hr ?_ le_rfl, fun ha hk hq hqk => h.exec_dec hg hr ?_ (Nat.sub_le _ _),
    fun ha hkq => exec_failedWith (e := .corruptPadding) ?_⟩
  · by_cases ha : k % s.N = 0
    · have hq : lastInput s = 0 := by
        obtain hna | hk | hq := hcase
        · exact absurd ha hna
        · exact if_pos hk
        · exact hq
      rw [padByte_paddedInput_aligned ha, padding_eq_zero ha, hq]
    · rw [padByte_paddedInput_unaligned h.N_pos ha]
  · rw [padByte_paddedInput_aligned ha, padding_eq_zero ha]
    exact Nat.sub_add_cancel hqk
  · rw [h.firstError_dec hg hr, padByte_paddedInput_aligned ha, padding_eq_zero ha]
    exact if_pos hkq

end Sys2Proof.Machine
end

section
/-! Errors and completions (R170 to R185): how a command and an illegal word complete, that no run stops, and the
interrupt output. -/

namespace Sys2Proof.Machine

/-! ### Completions -/

/-- The completing engine step runs a command, or raises ILLEGAL_COMMAND (R44, R84). -/
theorem engineStep_completes {s t : State} (he : s.engine = .busy 0) (h : engineStep s = .next t) :
    (∃ i, exec i s = .next t) ∨ t = completeError .illegalCommand s := by
  rw [engineStep_last he] at h
  rcases hd : decode s.cmd with e | i
  · rw [execWord_illegal hd] at h
    exact .inr (Host.Outcome.next.inj h).symm
  · rw [execWord_ok hd] at h
    exact .inl ⟨i, h⟩

theorem commitOf_err (i : Instr) (s : State) : (commitOf i s).err = s.err :=
  (congrArg State.err (commitOf_frame i s) :)

/-- Settles O10: the first failing check completes the command with its error, and a commit does not write
ERR. -/
theorem everyCommandGoesBackToIdle : Obligations.EveryCommandGoesBackToIdle := by
  intro i s
  rcases hc : firstError (checksOf i s) with _ | e
  · exact ⟨_, exec_ok hc, rfl, rfl, .inl ⟨rfl, commitOf_err i s⟩⟩
  · exact ⟨_, exec_error hc, rfl, rfl, .inr ⟨code_ne_zero e, rfl⟩⟩

/-- A command that leaves an error code wrote only STATUS (R176). -/
theorem exec_eq_failedWith {i : Instr} {s t : State} (h : exec i s = .next t) (ht : t.errcode ≠ 0) :
    t = s.failedWith t.errcode := by
  obtain ⟨e, -, rfl⟩ | ⟨-, rfl⟩ := exec_cases h
  · rfl
  · exact absurd rfl ht

/-- Settles O29: a word in CMD completes as a command does, or with ILLEGAL_COMMAND. -/
theorem errorChangesOnlyStatus : Obligations.ErrorChangesOnlyStatus := by
  refine ⟨fun i s t => exec_eq_failedWith, fun s t he h ht => ?_⟩
  obtain ⟨i, hi⟩ | rfl := engineStep_completes he h
  · exact exec_eq_failedWith hi ht
  · rfl

/-! ### Runs -/

/-- Settles O11: by induction on the number of steps, each of which answers a next state. -/
theorem everyRunIsSafe : Obligations.EveryRunIsSafe := by
  intro s k
  induction k generalizing s with
  | zero => exact ⟨s, rfl⟩
  | succ k ih =>
    obtain ⟨u, hu⟩ := step_total s
    rw [runSteps_succ hu]
    exact ih u

/-! ### The interrupt output -/

theorem irq_of_done {s : State} (h : s.done = true) : s.irq = s.ie := by
  rw [State.irq, h, Bool.and_true]

theorem irq_of_not_done {s : State} (h : s.done = false) : s.irq = false := by
  rw [State.irq, h, Bool.and_false]

/-- A command sets DONE and keeps IE, so IRQ is IE at its completion (R185). -/
theorem exec_irq {i : Instr} {s t : State} (h : exec i s = .next t) : t.irq = s.ie := by
  rw [exec_frame h]
  exact irq_of_done rfl

/-- Settles O50: a completion sets DONE and keeps IE, and the four other events leave DONE 0. -/
theorem irqFollowsCompletion : Obligations.IrqFollowsCompletion := by
  obtain ⟨haccept, -⟩ := commandWriteIsAccepted
  intro s
  refine ⟨rfl, fun i t => exec_irq, fun t he h => ?_, fun w hb => ?_, fun w hw => ?_, rfl, rfl⟩
  · obtain ⟨i, hi⟩ | rfl := engineStep_completes he h
    · exact exec_irq hi
    · exact irq_of_done rfl
  · rw [haccept w s hb]
    exact irq_of_not_done rfl
  · rw [statusWriteClearsOnes s w]
    exact irq_of_not_done (if_pos hw)

end Sys2Proof.Machine
end

section
/-! What the resets leave in every register (R200, R202), and what a written register reads back (R216). -/

namespace Sys2Proof.Machine

/-! ### The registers after a reset -/

/-- The fields in which a state after a reset may differ from `State.reset` show in no register but the port. -/
theorem readReg_reset_with {buf : Memory} {level : Bool} {epoch : Nat} {agenda : List Event}
    {reads : List Word} {r : Reg} (hr : r ≠ .bufData) :
    readReg { State.reset with
      buf := buf, resetInput := level, bufEpoch := epoch, agenda := agenda, reads := reads } r =
      readReg State.reset r := by
  cases r with
  | bufData => exact absurd rfl hr
  | mat m i j => cases m <;> rfl
  | _ => rfl

/-- Settles O39: SRST = 1 leaves the reset values and BUF. -/
theorem softResetKeepsOnlyBuf : Obligations.SoftResetKeepsOnlyBuf := by
  intro s w hw
  have hreset : hostWrite .word 0x004 w s = softReset s := (hostWrite_ctrl s w).trans (if_pos hw)
  dsimp only
  rw [hreset]
  exact ⟨rfl, rfl, softReset_bufByte s, fun _ => readReg_reset_with⟩

/-! ### The reset input -/

/-- The step that asserts the reset input, and every step while it is asserted, performs its event as one in
reset (R200). -/
theorem step_hardReset {s : State} (h : hardResetNow s) :
    (s.resetInput = true ∧ s.agenda = [] ∧ step s = .next (performInReset .engine s)) ∨
      ∃ e rest, (s.resetInput = true ∨ e = .resetInput true) ∧ s.agenda = e :: rest ∧
        step s = .next (performInReset e { s with agenda := rest }) := by
  by_cases hr : s.resetInput = true
  · rcases ha : s.agenda with _ | ⟨e, rest⟩
    · exact .inl ⟨hr, rfl, (step_nil ha).trans (perform_reset hr .engine)⟩
    · exact .inr ⟨e, rest, .inl hr, rfl,
        (step_cons ha).trans (perform_reset (s := { s with agenda := rest }) hr e)⟩
  · obtain ⟨rest, ha⟩ := h.resolve_left hr
    exact .inr ⟨_, rest, .inr rfl, ha, step_running (Bool.eq_false_iff.2 hr) ha⟩

/-- An event in reset leaves the engine IDLE, IRQ 0 and every register at its reset value (R200). -/
theorem performInReset_registers (e : Event) (s : State) :
    (performInReset e s).engine = .idle ∧ (performInReset e s).irq = false ∧
      ∀ r : Reg, r ≠ .bufData → readReg (performInReset e s) r = readReg State.reset r := by
  obtain ⟨level, agenda, reads, ht⟩ := performInReset_eq e s
  rw [ht]
  exact ⟨rfl, rfl, fun _ => readReg_reset_with⟩

theorem performInReset_agenda {e : Event} (he : e ≠ .wait) (s : State) :
    (performInReset e s).agenda = s.agenda := by
  cases e with
  | wait => exact absurd rfl he
  | _ => rfl

/-- Only an event of the reset input changes its level. -/
theorem performInReset_resetInput {e : Event} (he : ∀ level, e ≠ .resetInput level) (s : State) :
    (performInReset e s).resetInput = s.resetInput := by
  cases e with
  | resetInput level => exact absurd rfl (he level)
  | _ => rfl

/-- Away from the port a host read in the hard-reset state returns what it returns after reset. -/
theorem hostReadValue_hardReset (width : AccessWidth) {o : BitVec 12} (ho : o ≠ 0x038) (s : State) :
    hostReadValue width o (hardReset s) = hostReadValue width o State.reset := by
  rcases hp : accessPerformed width o with _ | _
  · rw [hostReadValue_unperformed hp, hostReadValue_unperformed hp]
  obtain rfl := accessPerformed_width hp
  rcases hr : regAt o with _ | r
  · rw [hostReadValue_none hr, hostReadValue_none hr]
  obtain rfl := (regAt_eq_some_iff o r).1 hr
  rw [hostReadValue_regOffset, hostReadValue_regOffset]
  exact readReg_reset_with fun h => ho (congrArg regOffset h)

/-- Settles O40: by the event that the step performs in reset, an engine step where the agenda is empty. -/
theorem hardResetSetsEveryRegister : Obligations.HardResetSetsEveryRegister := by
  intro s h
  obtain ⟨hr, ha, ht⟩ | ⟨e, rest, hr, ha, ht⟩ := step_hardReset h
  · obtain ⟨hidle, hirq, hregs⟩ := performInReset_registers .engine s
    refine ⟨_, ht, hidle, hirq, hregs, ?_, ?_, fun _ => hr, ?_⟩
    all_goals simp [ha]
  · obtain ⟨hidle, hirq, hregs⟩ := performInReset_registers e { s with agenda := rest }
    refine ⟨_, ht, hidle, hirq, hregs, fun e' rest' ha' he => ?_, fun level rest' ha' => ?_,
      fun hlevel => ?_, fun width o rest' ha' ho => ?_⟩
    · obtain ⟨rfl, rfl⟩ := List.cons.inj (ha.symm.trans ha')
      exact performInReset_agenda he _
    · obtain ⟨rfl, rfl⟩ := List.cons.inj (ha.symm.trans ha')
      rfl
    · have he : ∀ level, e ≠ .resetInput level := fun level he => hlevel level rest (he ▸ ha)
      exact (performInReset_resetInput he _).trans (hr.resolve_right (he true))
    · obtain ⟨rfl, rfl⟩ := List.cons.inj (ha.symm.trans ha')
      exact congrArg (s.reads ++ [·]) (hostReadValue_hardReset width ho _)

/-! ### Reading back a written register -/

theorem getElem_set_fin {α : Type} {n : Nat} (v : Vector α n) (i k : Fin n) (x : α) :
    (v.set i x)[k] = if i = k then x else v[k] := by
  simp [Vector.getElem_set, Fin.ext_iff]

/-- Writing an entry of a matrix register keeps every other entry (R38). -/
theorem setEntry_get (v : MatReg) (i j a b : Fin 16) (x : Entry) :
    (setEntry v i j x)[a][b] = if i = a ∧ j = b then x else v[a][b] := by
  rw [setEntry, getElem_set_fin]
  by_cases hi : i = a
  · subst hi
    rw [if_pos rfl, getElem_set_fin]
    simp only [true_and]
  · simp only [hi, false_and, if_false]

/-- A field of n bits reads as the n low bits of the value written to it (R40). -/
theorem setWidth_setWidth_eq_and (n : Nat) (w : Word) :
    (w.setWidth n).setWidth 32 = w &&& (BitVec.allOnes n).setWidth 32 := by
  refine BitVec.eq_of_getLsbD_eq fun i hi => ?_
  simp [hi, Bool.and_comm]

/-- A written register reads as the bits it stores (R216). -/
theorem readReg_writeReg_same {r : Reg} {mask : Word} (h : writeMask r = some mask) (s : State)
    (w : Word) : readReg (writeReg s r w) r = w &&& mask := by
  cases r with
  | id | ctrl | status | cmd | res | outlen | bufData | vout i => cases h
  | opa | opb =>
    cases h
    exact BitVec.and_allOnes.symm
  | vin j =>
    cases h
    simp only [readReg, writeReg, getElem_set_fin, if_true]
    exact setWidth_setWidth_eq_and 16 w
  | mat m i j =>
    cases h
    simp only [readReg, writeReg, mat_setMat_same, setEntry_get, and_self, if_true]
    exact setWidth_setWidth_eq_and 16 w
  | mod | dim | src | dst | len | bufAddr =>
    cases h
    exact setWidth_setWidth_eq_and _ w

/-- A write to a register leaves what every other register reads as; the port also reads at BUF_ADDR (R216). -/
theorem readReg_writeReg_other {r r' : Reg} {mask : Word} (h : writeMask r = some mask)
    (hne : r' ≠ r) (hport : r = .bufAddr → r' ≠ .bufData) (s : State) (w : Word) :
    readReg (writeReg s r w) r' = readReg s r' := by
  cases r with
  | id | ctrl | status | cmd | res | outlen | bufData | vout i => cases h
  | bufAddr =>
    cases r' with
    | bufAddr => exact absurd rfl hne
    | bufData => exact absurd rfl (hport rfl)
    | _ => rfl
  | vin j =>
    cases r' with
    | vin k =>
      have hjk : j ≠ k := fun hjk => hne (hjk ▸ rfl)
      simp only [readReg, writeReg, getElem_set_fin, if_neg hjk]
    | _ => rfl
  | mat m i j =>
    cases r' with
    | mat m' a b =>
      simp only [readReg, writeReg, mat_setMat]
      split
      · next hm =>
        subst hm
        have hij : ¬(i = a ∧ j = b) := fun ⟨hi, hj⟩ => hne (hi ▸ hj ▸ rfl)
        rw [setEntry_get, if_neg hij]
      · rfl
    | _ => cases m <;> rfl
  | mod | dim | opa | opb | src | dst | len =>
    cases r'
    any_goals exact absurd rfl hne
    all_goals rfl

/-- Settles O49: a write while IDLE is performed, and changes the field of one register. -/
theorem writtenRegisterReadsBack : Obligations.WrittenRegisterReadsBack := by
  intro s r w mask hb hmask
  dsimp only
  rw [hostWrite_regOffset (.inl hb)]
  simp only [hostReadValue_regOffset]
  exact ⟨readReg_writeReg_same hmask s w, fun r' => (readReg_writeReg_other hmask · · s w)⟩

end Sys2Proof.Machine
end
